-- ==== Sys2Proof/Word.lean ====
section
/-! DEFINITION. The word types of the block: every value is unsigned and has one fixed width (spec/00_scope.md R5, R7, R9). -/

namespace Sys2Proof

/-- An 8-bit value: `low`, `high`, `a` and the output byte (R5 `BYTE_WIDTH`). -/
abbrev Byte := BitVec 8

/-- A 16-bit value: the register `R` and the seed (R5 `REG_WIDTH`, `SEED_WIDTH`). -/
abbrev Word := BitVec 16

/-- The 18-bit command word `W = {cmd_i, seed_i}` (spec/30_encoding.md R45). -/
abbrev CommandWord := BitVec 18

end Sys2Proof
end

