-- ==== Sys2Proof/Machine/Pins.lean ====
section
/-! DEFINITION. The input pins as they are sampled at one rising edge of `clk_i` (spec/10_state.md R23,
spec/60_exceptions.md R90): a wire carries 0, 1 or an unknown or undriven value, and a bus is known when each
of its wires is. -/

namespace Sys2Proof.Machine

/-- What one wire carries. `x` (unknown) and `z` (undriven) are told apart by name only: R90 treats them alike.
Log entry 6. -/
inductive Level where
  | zero
  | one
  | x
  | z
  deriving DecidableEq, Repr

/-- The known bit a wire carries, none for X and Z. -/
def levelBit : Level → Option Bool
  | .zero => some false
  | .one => some true
  | .x => none
  | .z => none

/-- A driven wire. -/
def levelOf : Bool → Level
  | false => .zero
  | true => .one

/-- `n` wires, bit 0 first, driven with the low `n` bits of `v` (R23: bit 0 is the least significant). -/
def levelsOf : Nat → Nat → List Level
  | 0, _ => []
  | n + 1, v => levelOf (v.testBit 0) :: levelsOf n (v / 2)

theorem levelsOf_length (n v : Nat) : (levelsOf n v).length = n := by
  induction n generalizing v with
  | zero => rfl
  | succ n ih => simp [levelsOf, ih]

/-- The number a list of wires carries, bit 0 first: none as soon as one wire is unknown. -/
def levelsValue : List Level → Option Nat
  | [] => some 0
  | l :: ls =>
    match levelBit l, levelsValue ls with
    | some b, some v => some (b.toNat + 2 * v)
    | _, _ => none

/-- A bus of `n` wires, bit 0 first. -/
structure Bus (n : Nat) where
  wires : List Level
  width : wires.length = n
  deriving DecidableEq, Repr

/-- The value of a bus, none where a wire is unknown (R90). -/
def busValue {n : Nat} (b : Bus n) : Option (BitVec n) :=
  (levelsValue b.wires).map (BitVec.ofNat n)

/-- A bus driven with `v`, wire `i` carrying bit `i` (spec/20_memory.md R33). -/
def busDrive {n : Nat} (v : BitVec n) : Bus n :=
  ⟨levelsOf n v.toNat, levelsOf_length n v.toNat⟩

/-- A bus with the same level on every wire (an undriven bus, for one). -/
def busAll (n : Nat) (l : Level) : Bus n :=
  ⟨List.replicate n l, List.length_replicate⟩

/-- The input pins sampled at one rising edge of `clk_i`: `rst_i`, `cmd_i[1:0]`, `seed_i[15:0]` (R23). -/
structure Edge where
  rst : Level
  cmd : Bus 2
  seed : Bus 16
  deriving DecidableEq, Repr

/-- An edge that carries the command word `w = {cmd_i, seed_i}` with `rst_i = 0` (spec/30_encoding.md R45). -/
def commandEdge (w : CommandWord) : Edge :=
  { rst := .zero, cmd := busDrive (w.extractLsb' 16 2), seed := busDrive (w.extractLsb' 0 16) }

/-- The directive `RESET`: an edge with `rst_i = 1` (R54, R55). The command pins are ignored at it; the model
drives them with zeros. Log entry 13. -/
def resetEdge : Edge :=
  { rst := .one, cmd := busDrive 0#2, seed := busDrive 0#16 }

end Sys2Proof.Machine
end

