-- ==== Sys2Proof/Syntax.lean ====
section
/-! DEFINITION. The commands (spec/opcode_table.json, one constructor a row), why a command word has no
command, and the lines of the spec's assembly language (spec/30_encoding.md R55, R56). -/

namespace Sys2Proof

/-- The commands of the opcode table. `NOP` and `GEN` have no operand: their `imm16` is ignored (R50, R59, R65).
`INIT` takes the 16-bit seed (R49, R60). -/
inductive Instr where
  | nop
  | gen
  | init (seed : Word)
  deriving DecidableEq, Repr

/-- Why sampled command pins carry no command the model executes (spec/60_exceptions.md R88). -/
inductive DecodeError where
  /-- `op = 11` (R51, R89). -/
  | reservedCommand
  /-- An unknown `cmd_i`, or an unknown `seed_i` with `op = 10` (R90). -/
  | unknownInput
  deriving DecidableEq, Repr

/-- What the two strobes of `op` select (R47, R48). -/
inductive Op where
  | nop
  | gen
  | init
  | reserved
  deriving DecidableEq, Repr

/-- One line of the spec's assembly language, before its checks: literals are unbounded numbers (R55, R56). -/
inductive AsmLine where
  | nop
  | gen
  | init (value : Nat)
  | genTimes (count : Nat)
  | nopTimes (count : Nat)
  /-- The directive `RESET`: one edge with `rst_i = 1`; not a command word (R55). -/
  | reset
  deriving DecidableEq, Repr

/-- Why the assembler rejects a line. -/
inductive AsmError where
  /-- The line is none of the forms of R55 and R56. -/
  | unknownLine
  /-- The operand is no hexadecimal literal of 1 to 4 digits and no decimal literal (R55). -/
  | badLiteral
  /-- The operand lies outside `0..65535` (R55). -/
  | operandTooLarge
  /-- `GEN*0` or `NOP*0` (R56). -/
  | zeroCount
  deriving DecidableEq, Repr

/-- One line of a disassembly: a command, or `.reserved 0x<W>` (R57). -/
inductive Listing where
  | command (i : Instr)
  | reserved (w : CommandWord)
  deriving DecidableEq, Repr

end Sys2Proof
end

