-- ==== Sys2Proof/Decode.lean ====
section
/-! DEFINITION. Decoding and encoding of command words (spec/30_encoding.md). Decoding is total: every 18-bit
word is one of the four rows of R47, and the row `11` is rejected by name. -/

namespace Sys2Proof

open Machine

/-- Field `op = W[17:16]`, the `cmd_i` port (R46). -/
def opField (w : CommandWord) : BitVec 2 := w.extractLsb' 16 2

/-- Field `imm16 = W[15:0]`, the `seed_i` port (R46). -/
def immField (w : CommandWord) : Word := w.extractLsb' 0 16

/-- The opcode map, read as strobes: `cmd_i[1]` is the init strobe, `cmd_i[0]` the generate strobe (R47, R48). -/
def opOf (cmd : BitVec 2) : Op :=
  match cmd.getLsbD 1, cmd.getLsbD 0 with
  | false, false => .nop
  | false, true => .gen
  | true, false => .init
  | true, true => .reserved

/-- The command of an `op` and an `imm16` that may be unknown: `imm16` is looked at for `INIT` alone
(R49, R50; spec/60_exceptions.md R90). -/
def decodeFields (cmd : BitVec 2) (imm : Option Word) : Except DecodeError Instr :=
  match opOf cmd with
  | .nop => .ok .nop
  | .gen => .ok .gen
  | .init =>
    match imm with
    | some seed => .ok (.init seed)
    | none => .error .unknownInput
  | .reserved => .error .reservedCommand

/-- The command of an 18-bit command word (R47). -/
def decode (w : CommandWord) : Except DecodeError Instr :=
  decodeFields (opField w) (some (immField w))

/-- The command on the pins of an edge with `rst_i = 0`: an unknown `cmd_i` is rejected, an unknown `seed_i`
matters to `INIT` alone (spec/60_exceptions.md R90, R91). -/
def decodePins (e : Edge) : Except DecodeError Instr :=
  match busValue e.cmd with
  | none => .error .unknownInput
  | some cmd => decodeFields cmd (busValue e.seed)

/-- The command word of a command, with `imm16 = 0x0000` for `NOP` and `GEN` (R47, R57). -/
def encode : Instr → CommandWord
  | .nop => 0x00000#18
  | .gen => 0x10000#18
  | .init seed => 0x20000#18 ||| seed.setWidth 18

/-- A command word with the `imm16` that `NOP`, `GEN` and the reserved encoding ignore put to zero (R50, R57). -/
def canonicalWord (w : CommandWord) : CommandWord :=
  match opOf (opField w) with
  | .nop => 0x00000#18
  | .gen => 0x10000#18
  | .init => w
  | .reserved => 0x30000#18

/-- The 18-bit command word held in a number of `nbits` bits: bit 0 of the number is bit 0 of `W`; the bits that
fill the last byte beyond bit 17 belong to no command word. Log entry 12. -/
def tableWord (nbits w : Nat) : CommandWord := BitVec.ofNat 18 (w % 2 ^ nbits)

/-- The command the decoder reads from a word numbered as spec/opcode_table.json numbers it. -/
def decodeTableWord (nbits w : Nat) : Option Instr :=
  match decode (tableWord nbits w) with
  | .ok i => some i
  | .error _ => none

/-- What a disassembler prints for a word (R57). -/
def disassemble (w : CommandWord) : Listing :=
  match decode w with
  | .ok i => .command i
  | .error _ => .reserved w

end Sys2Proof
end

