-- ==== Sys2Proof/Config.lean ====
section
/-! DEFINITION. What the source fixes for the block (spec/00_scope.md R5) and the one parameter it leaves open (R6). -/

namespace Sys2Proof

/-- `TAP`: the feedback mask XORed into `a` (R5). -/
abbrev Config.tap : Byte := 0x2D#8

/-- `ITER`: inner iterations of one `GEN` (R5). -/
abbrev Config.iterations : Nat := 8

/-- `RESET_SEED`, the value reset loads into `R` (R6, spec/10_state.md R25, R26).
The spec leaves it OPEN, so it has no body: what is proved about the machine holds for every value of it.
Log entry 1. -/
opaque Config.resetSeed : Word

end Sys2Proof
end

