-- ==== Sys2Proof/Machine/Flags.lean ====
section
/-! DEFINITION. The transient carry of one `GEN` (spec/10_state.md R19, spec/41_generate.md R66 to R69): the
8-bit shift and rotate helpers of spec/00_scope.md R10 and the three steps that write and test the carry. The
only kept flag, `V`, is written in Ops.lean. -/

namespace Sys2Proof.Machine

/-- `msb8(v) = v[7]` (R10). -/
def msb8 (v : Byte) : Bool := v.getLsbD 7

/-- `shl8(v) = (v << 1) mod 256` (R10). -/
def shl8 (v : Byte) : Byte := v <<< 1

/-- `rolc8(v, c) = {v[6:0], c}`: rotate left through the carry-in `c` (R10). -/
def rolc8 (v : Byte) (c : Bool) : Byte := v.extractLsb' 0 7 ++ BitVec.ofBool c

/-- `rolc8_out(v) = v[7]`: the carry-out of the rotate (R10). -/
def rolc8Out (v : Byte) : Bool := v.getLsbD 7

/-- The working values of one `GEN`: combinational, never state (spec/10_state.md R20). -/
structure Work where
  a : Byte
  high : Byte
  carry : Bool
  deriving DecidableEq, Repr

/-- Step 3a: the carry takes `a`'s bit 7, then `a` shifts left (R67). -/
def shiftStep (w : Work) : Work :=
  { w with carry := msb8 w.a, a := shl8 w.a }

/-- Step 3b: `high` rotates left through the carry that step 3a of the same iteration left; the bit shifted out
of `high` becomes the carry (R68; spec/90_conflicts.md C3). -/
def rotateStep (w : Work) : Work :=
  { w with high := rolc8 w.high w.carry, carry := rolc8Out w.high }

/-- Step 3c: if the carry that step 3b of the same iteration left is 1, XOR the tap mask into `a`
(R69; spec/90_conflicts.md C1). -/
def feedbackStep (w : Work) : Work :=
  { w with a := if w.carry then w.a ^^^ Config.tap else w.a }

end Sys2Proof.Machine
end

