-- ==== Sys2Proof/Machine/Operands.lean ====
section
/-! DEFINITION. The halves of `R` that `GEN` reads and the value it writes back (spec/00_scope.md R8,
spec/10_state.md R16, spec/20_memory.md R34). The only other operand, the seed of `INIT`, is the field
`immField` of Decode.lean. -/

namespace Sys2Proof.Machine

/-- `low = R[7:0]` (R8, R16). -/
def lowByte (r : Word) : Byte := r.extractLsb' 0 8

/-- `high = R[15:8]` (R8, R16). -/
def highByte (r : Word) : Byte := r.extractLsb' 8 8

/-- `{high, low}`, that is `(high << 8) | low` (R34; spec/41_generate.md R71). -/
def joinBytes (high low : Byte) : Word := high ++ low

end Sys2Proof.Machine
end

