-- ==== Sys2Proof/Machine/State.lean ====
section
/-! DEFINITION. The state of the block: the pair `(R, V)` (spec/10_state.md R22), or no value before the first
reset or `INIT` (R29), beside the host's list of coming edges and the position in it (R30,
spec/70_reset_and_hazards.md R106). -/

namespace Sys2Proof.Machine

/-- The block's registers (R22). -/
inductive Registers where
  /-- From power-up until the first reset or `INIT`, `R` and `V` hold no value (R29). Log entry 2. -/
  | uninitialised
  /-- The state register `R` (R15) and the output-valid flag `V` (R21). -/
  | defined (r : Word) (v : Bool)
  deriving DecidableEq, Repr

/-- The whole state. -/
structure State where
  /-- The architectural state `(R, V)` (R22). -/
  regs : Registers
  /-- The host's edges still to come, the next one first (spec/70_reset_and_hazards.md R106). Log entry 3. -/
  input : List Edge
  /-- The index of the next edge in the host's list (R30). Log entry 5. -/
  pos : Nat
  deriving DecidableEq, Repr

/-- What stops the machine; no exception of the hardware (spec/60_exceptions.md R83, R88). -/
inductive Fault where
  /-- `fault(UNINITIALISED_STATE)`: raised by `GEN`, and by a read of an output port, before the first reset or
  `INIT` (R29, R88). Safe: a claim about such a run becomes unprovable. -/
  | uninitialisedState
  deriving DecidableEq, Repr

/-- What the model gives no meaning (spec/60_exceptions.md R88). -/
inductive Refusal where
  /-- The host interface's own: a command whose arm in `exec` has no meaning yet. No arm raises it. Safe. -/
  | notModelled (mnemonic : String)
  /-- `refuse(RESERVED_COMMAND)`: raised at an edge with `rst_i = 0` and `cmd_i = 11` (R89). Safe: it only removes
  runs. -/
  | reservedCommand
  /-- `refuse(UNKNOWN_INPUT)`: raised at an edge with an unknown `rst_i`, `cmd_i`, or `seed_i` during `INIT`
  (R90). Safe: it only removes runs. -/
  | unknownInput
  deriving DecidableEq, Repr

/-- The state straight after reset with `RESET_SEED = resetSeed` (R25, R27; spec/70_reset_and_hazards.md R95);
no edge is waiting and the position is 0 (log entries 3 and 5). -/
def State.resetWith (resetSeed : Word) : State :=
  { regs := .defined resetSeed false, input := [], pos := 0 }

/-- The state straight after reset, `RESET_SEED` left open (R26). -/
def State.reset : State := State.resetWith Config.resetSeed

/-- The state at power-up: the registers hold no value (R29). -/
def State.powerUp : State :=
  { regs := .uninitialised, input := [], pos := 0 }

end Sys2Proof.Machine
end

