-- ==== Sys2Proof/Machine/Ops.lean ====
section
/-! DEFINITION. The shared operations on the registers, the output ports, and reset. The block has no memory and
no trap mechanism (spec/20_memory.md R35, spec/60_exceptions.md R83, R85), so there is no memory operation and
no exception entry or return. Log entry 16. -/

namespace Sys2Proof.Machine

/-- The registers hold a value: a reset or an `INIT` has happened (spec/10_state.md R29). -/
def isDefined : Registers → Bool
  | .uninitialised => false
  | .defined _ _ => true

/-- The registers take new values at the edge: all 16 bits of `R`, and `V` (spec/10_state.md R16, R21). -/
def writeRegs (r : Word) (v : Bool) (s : State) : State :=
  { s with regs := .defined r v }

/-- `V <- 0` with `R` unchanged; registers that hold no value still hold none (spec/40_init_nop.md R59,
spec/10_state.md R29). -/
def clearValid (s : State) : State :=
  match s.regs with
  | .uninitialised => s
  | .defined r _ => writeRegs r false s

/-- An edge with `rst_i = 1`: `R <- RESET_SEED`, `V <- 0` (spec/70_reset_and_hazards.md R95). -/
def applyReset (resetSeed : Word) (s : State) : State :=
  writeRegs resetSeed false s

/-- A read of `rand_o = R[7:0]` (spec/10_state.md R24); before any value is held it faults (R29). -/
def randO (s : State) : Except Fault Byte :=
  match s.regs with
  | .uninitialised => .error .uninitialisedState
  | .defined r _ => .ok (lowByte r)

/-- A read of `rand_valid_o = V` (R24, R29). -/
def randValidO (s : State) : Except Fault Bool :=
  match s.regs with
  | .uninitialised => .error .uninitialisedState
  | .defined _ v => .ok v

/-- A read of `state_o = R` (R24, R29). -/
def stateO (s : State) : Except Fault Word :=
  match s.regs with
  | .uninitialised => .error .uninitialisedState
  | .defined r _ => .ok r

end Sys2Proof.Machine
end

