-- ==== Sys2Proof/Machine/Generate.lean ====
section
/-! DEFINITION. `GEN`: the source's algorithm, step by step (spec/41_generate.md R65 to R73). -/

namespace Sys2Proof.Machine

/-- Steps 1 and 2: split the register; `a := low`, `carry := 0` (R66; spec/90_conflicts.md C2, log entry 11). -/
def startWork (r : Word) : Work :=
  { a := lowByte r, high := highByte r, carry := false }

/-- One iteration of step 3: 3a, then 3b, then 3c (R70). -/
def iteration (w : Work) : Work := feedbackStep (rotateStep (shiftStep w))

/-- Step 3: `n` iterations in order, each from the values the one before left (R70). -/
def iterations : Nat → Work → Work
  | 0, w => w
  | n + 1, w => iterations n (iteration w)

/-- The working values after the 8 iterations (R70). -/
def finalWork (r : Word) : Work := iterations Config.iterations (startWork r)

/-- Step 4: the new register value `{high, a}`; the carry is discarded (R71, R74). -/
def generate (r : Word) : Word := joinBytes (finalWork r).high (finalWork r).a

/-- Step 5: the byte `generate()` returns (R72). -/
def generatedByte (r : Word) : Byte := (finalWork r).a

/-- `GEN` (R65): `R <- {high, a}`, `V <- 1`; before the first reset or `INIT` it faults
(spec/10_state.md R29). -/
def execGen (s : State) : Host.Outcome State Fault Refusal :=
  match s.regs with
  | .uninitialised => .fault .uninitialisedState
  | .defined r _ => .next (writeRegs (generate r) true s)

end Sys2Proof.Machine
end

