-- ==== Sys2Proof/Machine/InitNop.lean ====
section
/-! DEFINITION. The commands that do not generate: `NOP` and `INIT` (spec/40_init_nop.md). -/

namespace Sys2Proof.Machine

/-- `NOP` (R59): `R` unchanged, `V <- 0`. -/
def execNop (s : State) : Host.Outcome State Fault Refusal :=
  .next (clearValid s)

/-- `INIT seed` (R60, R61): `R <- seed` exactly as given, `V <- 0`, whatever the state was (R29, R63). -/
def execInit (seed : Word) (s : State) : Host.Outcome State Fault Refusal :=
  .next (writeRegs seed false s)

end Sys2Proof.Machine
end

