-- ==== Sys2Proof/Machine/Accept.lean ====
section
/-! DEFINITION. What one rising edge of `clk_i` does (spec/60_exceptions.md R91), with `RESET_SEED` as an argument
(spec/10_state.md R26). -/

namespace Sys2Proof.Machine

/-- The refusal a rejected command is answered with (spec/60_exceptions.md R88). -/
def refusalOf : DecodeError → Refusal
  | .reservedCommand => .reservedCommand
  | .unknownInput => .unknownInput

/-- The edge `e`, its outcomes checked in the order of R91: unknown `rst_i`; reset; unknown or reserved command;
the command's own meaning (whose uninitialised fault is item 5). -/
def acceptEdge (resetSeed : Word) (e : Edge) (s : State) : Host.Outcome State Fault Refusal :=
  match levelBit e.rst with
  | none => .refused .unknownInput
  | some true => .next (applyReset resetSeed s)
  | some false =>
    match decodePins e with
    | .error why => .refused (refusalOf why)
    | .ok i => exec i s

/-- The state with the next edge taken from the host's list: the position is one further (spec/10_state.md R30). -/
def takeEdge (rest : List Edge) (s : State) : State :=
  { s with input := rest, pos := s.pos + 1 }

/-- The state with an edge that carries `w` put before the host's list. -/
def offerCommand (w : CommandWord) (s : State) : State :=
  { s with input := commandEdge w :: s.input }

end Sys2Proof.Machine
end

