-- ==== Sys2Proof/Machine/Step.lean ====
section
/-! DEFINITION. One step: the next edge of the host's list (spec/10_state.md R30, spec/20_memory.md R41). -/

namespace Sys2Proof.Machine

/-- One step with `RESET_SEED = resetSeed`. Where the host's list is used up the run has ended
(spec/70_reset_and_hazards.md R106): there is no edge, so nothing changes (spec/10_state.md R24). Log entry 4. -/
def stepWith (resetSeed : Word) (s : State) : Host.Outcome State Fault Refusal :=
  match s.input with
  | [] => .next s
  | e :: rest => acceptEdge resetSeed e (takeEdge rest s)

/-- One step, `RESET_SEED` left open (spec/00_scope.md R6). -/
def step (s : State) : Host.Outcome State Fault Refusal := stepWith Config.resetSeed s

/-- `s` with an edge that carries the table's word `w` as the very next one. -/
def State.withFetchWord (s : State) (nbits w : Nat) : State := offerCommand (tableWord nbits w) s

end Sys2Proof.Machine
end

