-- ==== Sys2Proof/WellFormed.lean ====
section
/-! DEFINITION. The checks on terms: which lines the assembler rejects (spec/30_encoding.md R55, R56).
A command has nothing left to check: its only operand is 16 bits wide by its type and every value is legal (R49). -/

namespace Sys2Proof

/-- Every command is well formed: no operand value is rejected (R49, R52). -/
def Instr.wellFormed : Instr → Bool
  | .nop => true
  | .gen => true
  | .init _ => true

/-- The reason the assembler rejects a line, if it does: an `INIT` operand outside `0..65535` (R55), a repeat
count of zero (R56). -/
def AsmLine.problem : AsmLine → Option AsmError
  | .nop => none
  | .gen => none
  | .init value => if value ≤ 65535 then none else some .operandTooLarge
  | .genTimes count => if 1 ≤ count then none else some .zeroCount
  | .nopTimes count => if 1 ≤ count then none else some .zeroCount
  | .reset => none

/-- A line passes the assembler's checks. -/
def AsmLine.wellFormed (l : AsmLine) : Bool := l.problem.isNone

end Sys2Proof
end

