-- ==== Sys2Proof/Machine/Assembler.lean ====
section
/-! DEFINITION. The spec's assembler and disassembler (spec/30_encoding.md R55 to R57): from the characters of a
line to the edges it stands for, and from a command word to the text printed for it. Log entry 14. -/

namespace Sys2Proof.Machine

/-- Case-insensitive: lower-case letters read as upper-case ones (R55). -/
def upperChar (c : Char) : Char :=
  if 97 ≤ c.toNat ∧ c.toNat ≤ 122 then Char.ofNat (c.toNat - 32) else c

def blankChar (c : Char) : Bool := c == ' ' || c == '\t' || c == '\r'

/-- Comments start with `;` (R55). -/
def stripComment : List Char → List Char
  | [] => []
  | c :: cs => if c == ';' then [] else c :: stripComment cs

/-- The words of a line; `held` is the word being read, its last character first. -/
def wordsFrom (held : List Char) : List Char → List (List Char)
  | [] => if held.isEmpty then [] else [held.reverse]
  | c :: cs =>
    if blankChar c then
      if held.isEmpty then wordsFrom [] cs else held.reverse :: wordsFrom [] cs
    else wordsFrom (c :: held) cs

def decDigit (c : Char) : Option Nat :=
  if 48 ≤ c.toNat ∧ c.toNat ≤ 57 then some (c.toNat - 48) else none

/-- A hexadecimal digit, upper case (letters are read through `upperChar` first). -/
def hexDigit (c : Char) : Option Nat :=
  if 65 ≤ c.toNat ∧ c.toNat ≤ 70 then some (c.toNat - 55) else decDigit c

/-- A number in base `base`, `value` being what the digits before stand for. -/
def digitsFrom (base : Nat) (digit : Char → Option Nat) (value : Nat) : List Char → Option Nat
  | [] => some value
  | c :: cs =>
    match digit c with
    | some d => digitsFrom base digit (value * base + d) cs
    | none => none

/-- A decimal number of at least one digit. -/
def decNumber (cs : List Char) : Option Nat :=
  if cs.isEmpty then none else digitsFrom 10 decDigit 0 cs

/-- `<imm16>`: `0x` and 1 to 4 hexadecimal digits, or a decimal literal (R55). -/
def immLiteral (cs : List Char) : Option Nat :=
  match cs with
  | '0' :: 'X' :: ds => if ds.isEmpty || 4 < ds.length then none else digitsFrom 16 hexDigit 0 ds
  | _ => decNumber cs

/-- The line that the (upper-case) words of a source line stand for; none where there are no words.
DESIGN CHOICE: `.reserved 0x<W>`, which the disassembler prints (R57), is no source line here and is rejected as
`unknownLine`: R55 and R56 do not list it, though program P5 of spec/95_test_vectors.md writes it. Log entry 19. -/
def lineOfWords (ws : List (List Char)) : Except AsmError (Option AsmLine) :=
  match ws with
  | [] => .ok none
  | [['N', 'O', 'P']] => .ok (some .nop)
  | [['G', 'E', 'N']] => .ok (some .gen)
  | [['R', 'E', 'S', 'E', 'T']] => .ok (some .reset)
  | [['I', 'N', 'I', 'T'], lit] =>
    match immLiteral lit with
    | some value => .ok (some (.init value))
    | none => .error .badLiteral
  | ['G' :: 'E' :: 'N' :: '*' :: count] =>
    match decNumber count with
    | some n => .ok (some (.genTimes n))
    | none => .error .badLiteral
  | ['N' :: 'O' :: 'P' :: '*' :: count] =>
    match decNumber count with
    | some n => .ok (some (.nopTimes n))
    | none => .error .badLiteral
  | _ => .error .unknownLine

/-- Reading one source line. -/
def parseLine (cs : List Char) : Except AsmError (Option AsmLine) :=
  lineOfWords (wordsFrom [] ((stripComment cs).map upperChar))

/-- The edges a line expands to, its operands taken as they are: one canonical command word, `n` of them for
`GEN*n` and `NOP*n`, a reset edge for `RESET` (R55 to R57). -/
def expandLine : AsmLine → List Edge
  | .nop => [commandEdge (encode .nop)]
  | .gen => [commandEdge (encode .gen)]
  | .init value => [commandEdge (encode (.init (BitVec.ofNat 16 value)))]
  | .genTimes count => List.replicate count (commandEdge (encode .gen))
  | .nopTimes count => List.replicate count (commandEdge (encode .nop))
  | .reset => [resetEdge]

/-- The edges of a line, or the reason the assembler rejects it (R55, R56). -/
def assembleLine (l : AsmLine) : Except AsmError (List Edge) :=
  match l.problem with
  | some why => .error why
  | none => .ok (expandLine l)

/-- The edges of a program's lines, in order; the first rejected line rejects the program. -/
def assemble : List AsmLine → Except AsmError (List Edge)
  | [] => .ok []
  | l :: ls =>
    match assembleLine l, assemble ls with
    | .ok es, .ok rest => .ok (es ++ rest)
    | .error why, _ => .error why
    | .ok _, .error why => .error why

/-- The lines of a source text; the first line that cannot be read rejects it. -/
def parseText : List (List Char) → Except AsmError (List AsmLine)
  | [] => .ok []
  | cs :: rest =>
    match parseLine cs, parseText rest with
    | .ok none, .ok ls => .ok ls
    | .ok (some l), .ok ls => .ok (l :: ls)
    | .error why, _ => .error why
    | .ok _, .error why => .error why

/-- The edges of a source text given as its lines. -/
def assembleText (lines : List (List Char)) : Except AsmError (List Edge) :=
  match parseText lines with
  | .ok ls => assemble ls
  | .error why => .error why

/-- An upper-case hexadecimal digit of a number below 16. -/
def hexChar (d : Nat) : Char := if d < 10 then Char.ofNat (48 + d) else Char.ofNat (55 + d)

/-- `n` hexadecimal digits of `v`, the most significant first. -/
def hexText : Nat → Nat → List Char
  | 0, _ => []
  | n + 1, v => hexChar (v / 16 ^ n % 16) :: hexText n v

/-- The text a disassembler prints (R57). -/
def listingText : Listing → List Char
  | .command .nop => ['N', 'O', 'P']
  | .command .gen => ['G', 'E', 'N']
  | .command (.init seed) => ['I', 'N', 'I', 'T', ' ', '0', 'x'] ++ hexText 4 seed.toNat
  | .reserved w => ['.', 'r', 'e', 's', 'e', 'r', 'v', 'e', 'd', ' ', '0', 'x'] ++ hexText 5 w.toNat

end Sys2Proof.Machine
end

