-- ==== Sys2Proof/Machine/Chain.lean ====
section
/-! DEFINITION. The other forms the spec gives of `GEN`: the 8-stage chain of wires (spec/41_generate.md R74),
the Galois step (R75) and the carry-less product (R76). The algorithm of Generate.lean governs; these are stated
equal to it. -/

namespace Sys2Proof.Machine

/-- The wires between two stages of the chain: `a_k` and `h_k` (R74). -/
structure Stage where
  a : Byte
  h : Byte
  deriving DecidableEq, Repr

/-- `cs_k = a_{k-1}[7]`: the shift carry (R74). -/
def stageShiftCarry (s : Stage) : Bool := s.a.getLsbD 7

/-- `cr_k = h_{k-1}[7]`: the rotate carry (R74). -/
def stageRotateCarry (s : Stage) : Bool := s.h.getLsbD 7

/-- One stage: `h_k = {h_{k-1}[6:0], cs_k}`, `a_k = {a_{k-1}[6:0], 0} xor (cr_k ? 0x2D : 0x00)` (R74). -/
def nextStage (s : Stage) : Stage :=
  { h := s.h.extractLsb' 0 7 ++ BitVec.ofBool (stageShiftCarry s)
    a := (s.a.extractLsb' 0 7 ++ 0#1) ^^^ (if stageRotateCarry s then Config.tap else 0x00#8) }

/-- The wires after `k` stages, from `a_0 = R[7:0]`, `h_0 = R[15:8]` (R74). -/
def stageAfter (r : Word) : Nat → Stage
  | 0 => { a := lowByte r, h := highByte r }
  | k + 1 => nextStage (stageAfter r k)

/-- `R' = {h_8, a_8}` (R74). -/
def chain (r : Word) : Word := joinBytes (stageAfter r 8).h (stageAfter r 8).a

/-- `step(S) = ((S << 1) mod 2^16) xor (S[15] ? 0x002D : 0x0000)` (R75). -/
def galoisStep (s : Word) : Word :=
  (s <<< 1) ^^^ (if s.getLsbD 15 then 0x002D#16 else 0x0000#16)

/-- `step^n(S)` (R75). -/
def galoisSteps : Nat → Word → Word
  | 0, s => s
  | n + 1, s => galoisSteps n (galoisStep s)

/-- The XOR of `x << i` over every `i < n` with `y[i] = 1`, on numbers (spec/00_scope.md, section 4). -/
def clmulBits (x y : Nat) : Nat → Nat
  | 0 => 0
  | i + 1 => clmulBits x y i ^^^ (if y.testBit i then x <<< i else 0)

/-- `clmul(x, y)` of two bytes: the carry-less product, zero-extended to 16 bits (spec/00_scope.md, section 4). -/
def clmul (x y : Byte) : Word := BitVec.ofNat 16 (clmulBits x.toNat y.toNat 8)

/-- `R' = {R[7:0], 0x00} xor zext_16(clmul(R[15:8], 0x2D))` (R76). -/
def closedForm (r : Word) : Word :=
  joinBytes (lowByte r) 0x00#8 ^^^ clmul (highByte r) Config.tap

end Sys2Proof.Machine
end

