-- ==== Sys2Proof/Machine/Run.lean ====
section
/-! DEFINITION. A run of the block and what is observed of it (spec/70_reset_and_hazards.md R106), with
`RESET_SEED` as an argument (spec/10_state.md R26). -/

namespace Sys2Proof.Machine

/-- The machine with `RESET_SEED = resetSeed`; `Sys2Proof.core` is this one at the open value. -/
def coreWith (resetSeed : Word) : Host.Core :=
  { State := State, Fault := Fault, Refusal := Refusal,
    step := stepWith resetSeed, reset := State.resetWith resetSeed }

/-- `k` steps, stopping at the first fault or refusal: the stop is the mark that no later command clears
(spec/60_exceptions.md R88). Log entry 8. -/
def runSteps (resetSeed : Word) (k : Nat) (s : State) : Host.Outcome State Fault Refusal :=
  (coreWith resetSeed).run k s

/-- The whole run: as many steps as the host's list holds edges (R106). -/
def runAll (resetSeed : Word) (s : State) : Host.Outcome State Fault Refusal :=
  runSteps resetSeed s.input.length s

/-- A state whose coming edges are `es`. -/
def withEdges (es : List Edge) (s : State) : State := { s with input := es }

/-- The mark of a run that had a fault or a refusal (spec/60_exceptions.md R88). -/
inductive Mark where
  | fault (why : Fault)
  | refusal (why : Refusal)
  deriving DecidableEq, Repr

/-- What is observed of a run: `(rand_o, rand_valid_o)` after each edge, the final `state_o`, and the mark
(R106). `finalState` is none where the run is marked: a faulted state is never final. -/
structure Observation where
  outputs : List (Byte × Bool)
  finalState : Option Word
  mark : Option Mark
  deriving DecidableEq, Repr

/-- A marked run that ends here (log entry 10). -/
def markedEnd (m : Mark) : Observation := { outputs := [], finalState := none, mark := some m }

/-- The reads of `rand_o` and `rand_valid_o` after an edge (spec/10_state.md R24, R29). -/
def readOutputs (s : State) : Except Fault (Byte × Bool) :=
  match randO s, randValidO s with
  | .ok byte, .ok valid => .ok (byte, valid)
  | .error why, _ => .error why
  | .ok _, .error why => .error why

/-- What is observed of the edges `es` accepted in order from `s` (R106). Observing the outputs is reading them,
so an edge that leaves the registers without a value marks the run (log entry 9). -/
def observe (resetSeed : Word) : List Edge → State → Observation
  | [], s =>
    match stateO s with
    | .ok r => { outputs := [], finalState := some r, mark := none }
    | .error why => markedEnd (.fault why)
  | e :: rest, s =>
    match acceptEdge resetSeed e s with
    | .fault why => markedEnd (.fault why)
    | .refused why => markedEnd (.refusal why)
    | .next t =>
      match readOutputs t with
      | .error why => markedEnd (.fault why)
      | .ok out =>
        let later := observe resetSeed rest t
        { later with outputs := out :: later.outputs }

/-- The bytes the host collects: `rand_o` after each edge with `rand_valid_o = 1` (R99, R101). -/
def collectedBytes : List (Byte × Bool) → List Byte
  | [] => []
  | (byte, true) :: rest => byte :: collectedBytes rest
  | (_, false) :: rest => collectedBytes rest

/-- `n` executions of one command, one after the other, stopping at the first that gives no next state. -/
def execTimes (i : Instr) : Nat → State → Host.Outcome State Fault Refusal
  | 0, s => .next s
  | n + 1, s =>
    match exec i s with
    | .next t => execTimes i n t
    | .fault why => .fault why
    | .refused why => .refused why

end Sys2Proof.Machine
end

