-- ==== Sys2Proof/Safety.lean ====
section
/-! DEFINITION. What a safe run is: the host keeps its duties (spec/70_reset_and_hazards.md R103), and no fault or
refusal marks the run (spec/60_exceptions.md R88). -/

namespace Sys2Proof

open Machine

/-- The edge keeps the host's duties of R103, `held` saying whether the registers hold a value before it: no
unknown `rst_i`; at an edge without reset no unknown or reserved command, no `INIT` with an unknown `seed_i`, and
no `GEN` before the first reset or `INIT`. -/
def edgeKeepsDuties (e : Edge) (held : Bool) : Bool :=
  match levelBit e.rst with
  | none => false
  | some true => true
  | some false =>
    match decodePins e with
    | .error _ => false
    | .ok .nop => true
    | .ok .gen => held
    | .ok (.init _) => true

/-- Whether the registers hold a value after an accepted edge (spec/10_state.md R29). -/
def heldAfter (e : Edge) (held : Bool) : Bool :=
  match levelBit e.rst with
  | none => held
  | some true => true
  | some false =>
    match decodePins e with
    | .error _ => held
    | .ok .nop => held
    | .ok .gen => held
    | .ok (.init _) => true

/-- Every edge of the list keeps the host's duties (R103). -/
def dutiesKept : List Edge → Bool → Bool
  | [], _ => true
  | e :: rest, held => edgeKeepsDuties e held && dutiesKept rest (heldAfter e held)

/-- The outputs hold a value after every edge of the list and at its end, where the observation reads them
(R103, R106). -/
def readsAllowed : List Edge → Bool → Bool
  | [], held => held
  | e :: rest, held => heldAfter e held && readsAllowed rest (heldAfter e held)

/-- The run ends without a fault or refusal mark, in `t`. -/
def EndsIn (resetSeed : Word) (s t : State) : Prop := runAll resetSeed s = .next t

/-- The run is unmarked: the premise of every claim about a run (R106). -/
def Unmarked (resetSeed : Word) (s : State) : Prop := ∃ t, EndsIn resetSeed s t

/-- Whether the edge is an `INIT` with seed zero, or a reset while `RESET_SEED` is zero: the two ways a nonzero
`R` can become zero (spec/10_state.md R18, spec/41_generate.md R78). -/
def edgeZeroes (resetSeed : Word) (e : Edge) : Bool :=
  match levelBit e.rst with
  | none => false
  | some true => resetSeed == 0#16
  | some false =>
    match decodePins e with
    | .error _ => false
    | .ok .nop => false
    | .ok .gen => false
    | .ok (.init seed) => seed == 0#16

/-- The state is not degenerate and nothing the host has still to send makes it so (spec/60_exceptions.md R84,
spec/70_reset_and_hazards.md R99). -/
def NonDegenerate (resetSeed : Word) (s : State) : Prop :=
  (∃ r v, s.regs = .defined r v ∧ r ≠ 0#16) ∧ ∀ e ∈ s.input, edgeZeroes resetSeed e = false

/-- `R` and `V` hold values (spec/10_state.md R29). -/
def Initialised (s : State) : Prop := isDefined s.regs = true

end Sys2Proof
end

