-- ==== Sys2Proof/Certificates/Slice0/Obligations.lean ====
section
/-! DEFINITION. What is claimed of the machine, for the provers: one `def Obligations.<Name> : Prop` a claim. Each
docstring names the rule of spec/ it formalises. -/

open Sys2Proof Sys2Proof.Machine

/-! ## The commands -/

/-- R59. Every word with `op = 00` is `NOP`; `NOP` keeps `R` and clears `V`, keeps a power-up state as it is,
never stops; any number of them equals one; the byte stays on `rand_o` while `rand_valid_o` drops; the rule's
example. -/
def Obligations.NopKeepsRAndClearsValid : Prop :=
  (∀ w : CommandWord, w &&& 0x30000#18 = 0x00000#18 → decode w = .ok .nop) ∧
  (∀ s r v, s.regs = .defined r v → exec .nop s = .next { s with regs := .defined r false }) ∧
  (∀ s, s.regs = .uninitialised → exec .nop s = .next s) ∧
  (∀ s n, execTimes .nop (n + 1) s = exec .nop s) ∧
  (∀ s t r v, s.regs = .defined r v → exec .nop s = .next t → randO t = randO s ∧ randValidO t = .ok false) ∧
  (∀ s, s.regs = .defined 0xAEC2#16 true →
    ∃ t, exec .nop s = .next t ∧ t.regs = .defined 0xAEC2#16 false ∧ randO t = .ok 0xC2#8)

/-- R60, R61. Every word with `op = 10` is `INIT` with the seed `W[15:0]`; from every state, a power-up state
too, `INIT` stores the seed exactly and clears `V`, and never stops; `rand_o` is then the seed's low byte, not
valid; after seed zero every `GEN` returns `0x00`; the rule's example. -/
def Obligations.InitStoresTheSeedExactly : Prop :=
  (∀ w : CommandWord, w &&& 0x30000#18 = 0x20000#18 → decode w = .ok (.init (w.extractLsb' 0 16))) ∧
  (∀ s seed, exec (.init seed) s = .next { s with regs := .defined seed false }) ∧
  (∀ s t seed, exec (.init seed) s = .next t →
    randO t = .ok (seed.extractLsb' 0 8) ∧ randValidO t = .ok false ∧ stateO t = .ok seed) ∧
  (∀ s n, ∃ t u, exec (.init 0x0000#16) s = .next t ∧ execTimes .gen (n + 1) t = .next u ∧
    u.regs = .defined 0x0000#16 true ∧ randO u = .ok 0x00#8) ∧
  (decode 0x2BABE#18 = .ok (.init 0xBABE#16) ∧
    ∀ s t, exec (.init 0xBABE#16) s = .next t → t.regs = .defined 0xBABE#16 false ∧ randO t = .ok 0xBE#8)

/-- R66 to R72. The working values start as the halves of `R` with carry 0. For any values that meet the algorithm's equations: `a 0`, `high 0` the halves of `R`; in each of
the 8 iterations the shift carry is `a`'s bit 7, the rotate puts it into `high`'s bit 0, the rotate carry is
`high`'s bit 7, and where it is 1 the tap mask goes into the shifted `a`. `GEN` then answers a next state with
`R = {high 8, a 8}`, `V = 1`, nothing else changed, and `rand_o = a 8`. -/
def Obligations.GenRunsTheEightIterations : Prop :=
  (∀ r : Word, startWork r = { a := r.extractLsb' 0 8, high := r.extractLsb' 8 8, carry := false }) ∧
  ∀ (s : State) (r : Word) (v : Bool) (a high : Nat → Byte) (shiftCarry rotateCarry : Nat → Bool),
    s.regs = .defined r v →
    a 0 = r.extractLsb' 0 8 → high 0 = r.extractLsb' 8 8 →
    (∀ k < 8, shiftCarry (k + 1) = (a k).getLsbD 7) →
    (∀ k < 8, high (k + 1) = (high k).extractLsb' 0 7 ++ BitVec.ofBool (shiftCarry (k + 1))) →
    (∀ k < 8, rotateCarry (k + 1) = (high k).getLsbD 7) →
    (∀ k < 8, a (k + 1) = if rotateCarry (k + 1) then (a k <<< 1) ^^^ 0x2D#8 else a k <<< 1) →
    ∃ t, exec .gen s = .next t ∧ t = { s with regs := .defined (high 8 ++ a 8) true } ∧ randO t = .ok (a 8)

/-- R65. Every word with `op = 01` is `GEN`; the results of the rule's corner cases and of its example; the fault
before the first reset or `INIT`. -/
def Obligations.GenEncodingFaultAndCornerCases : Prop :=
  (∀ w : CommandWord, w &&& 0x30000#18 = 0x10000#18 → decode w = .ok .gen) ∧
  (∀ s, s.regs = .uninitialised → exec .gen s = .fault .uninitialisedState) ∧
  (∀ (s : State) (v : Bool), ∀ c ∈ [(0x0000#16, 0x0000#16), (0x0080#16, 0x8000#16), (0x0100#16, 0x002D#16), (0x8000#16, 0x1680#16),
      (0xFFFF#16, 0xE41B#16), (0xBABE#16, 0xAEC2#16)],
    s.regs = .defined c.1 v → exec .gen s = .next { s with regs := .defined c.2 true })

/-- R74. The 8-stage chain of wires computes what `GEN` computes; its shift and rotate carries are those of the
iterations; the carry a `GEN` starts with drives no stage. -/
def Obligations.GenIsTheEightStageChain : Prop :=
  (∀ s r v, s.regs = .defined r v → exec .gen s = .next { s with regs := .defined (chain r) true }) ∧
  (∀ r k, k < 8 →
    (shiftStep (iterations k (startWork r))).carry = stageShiftCarry (stageAfter r k) ∧
    (rotateStep (shiftStep (iterations k (startWork r)))).carry = stageRotateCarry (stageAfter r k)) ∧
  (∀ r c n, 0 < n → iterations n { startWork r with carry := c } = iterations n (startWork r))

/-- R75. One iteration is one step of the 16-bit Galois LFSR on `{high, a}`, whatever the carry before it; a `GEN`
is eight of them. -/
def Obligations.GenIsEightGaloisSteps : Prop :=
  (∀ w : Work, joinBytes (iteration w).high (iteration w).a = galoisStep (joinBytes w.high w.a)) ∧
  (∀ s r v, s.regs = .defined r v → exec .gen s = .next { s with regs := .defined (galoisSteps 8 r) true })

/-- R76. The closed form with the carry-less product: the new register, the output byte, the rotate carries (the
old high bits, the most significant first); the product is at most 13 bits wide; the map from the old high byte to
the output is a bijection, and the output is zero exactly when the old high byte is; `R -> R'` is a bijection. -/
def Obligations.GenHasTheCarrylessProductForm : Prop :=
  (∀ s r v, s.regs = .defined r v → ∃ t, exec .gen s = .next t ∧
    t.regs = .defined ((r.extractLsb' 0 8 ++ 0x00#8) ^^^ clmul (r.extractLsb' 8 8) 0x2D#8) true ∧
    randO t = .ok ((clmul (r.extractLsb' 8 8) 0x2D#8).extractLsb' 0 8) ∧
    (randO t = .ok 0x00#8 ↔ r.extractLsb' 8 8 = 0x00#8)) ∧
  (∀ (r : Word) k, 1 ≤ k → k ≤ 8 →
    (rotateStep (shiftStep (iterations (k - 1) (startWork r)))).carry = r.getLsbD (16 - k)) ∧
  (∀ h : Byte, (clmul h 0x2D#8).toNat < 2 ^ 13) ∧
  Function.Bijective (fun h : Byte => (clmul h 0x2D#8).extractLsb' 0 8) ∧
  (∀ (s : State) (v : Bool) (r' : Word),
    ∃! r : Word, exec .gen { s with regs := .defined r v } = .next { s with regs := .defined r' true })

/-- The algorithm is linear over XOR (spec/00_scope.md R4, "is linear and fully predictable"). -/
def Obligations.GenIsLinearOverXor : Prop :=
  ∀ (s : State) (v : Bool) (r r' : Word),
    exec .gen { s with regs := .defined (r ^^^ r') v } =
      .next { s with regs := .defined (generate r ^^^ generate r') true }

/-- R77. From `R = 0x0000` every `GEN` leaves `R = 0x0000` and returns `0x00`. -/
def Obligations.ZeroIsAFixedPointOfGen : Prop :=
  ∀ s v n, s.regs = .defined 0x0000#16 v →
    ∃ t, execTimes .gen (n + 1) s = .next t ∧ t.regs = .defined 0x0000#16 true ∧ randO t = .ok 0x00#8

/-- R78. The single Galois step has period 65,535 on the nonzero values, and a nonzero `R` never becomes zero by
`GEN`. -/
def Obligations.GaloisStepHasMaximalPeriod : Prop :=
  (∀ r : Word, r ≠ 0#16 →
    galoisSteps 65535 r = r ∧ ∀ n, 0 < n → n < 65535 → galoisSteps n r ≠ r) ∧
  (∀ s t r v, s.regs = .defined r v → r ≠ 0#16 → exec .gen s = .next t →
    ∃ r', t.regs = .defined r' true ∧ r' ≠ 0#16)

/-- R79. The nonzero values form one cycle under `GEN`: exactly 65,535 `GEN`s lead back, no smaller positive
number does, every nonzero value is met on the way, and the 65,536th `GEN` returns the first one's byte. -/
def Obligations.NonzeroStatesFormOneCycle : Prop :=
  ∀ s r v, s.regs = .defined r v → r ≠ 0#16 →
    (∃ t, execTimes .gen 65535 s = .next t ∧ t.regs = .defined r true) ∧
    (∀ n t, 0 < n → n < 65535 → execTimes .gen n s = .next t → t.regs ≠ .defined r true) ∧
    (∀ r' : Word, r' ≠ 0#16 → ∃ n t, n < 65535 ∧ execTimes .gen n s = .next t ∧ stateO t = .ok r') ∧
    (∃ t u, execTimes .gen 1 s = .next t ∧ execTimes .gen 65536 s = .next u ∧ randO u = randO t)

/-- R80. The output bytes from a nonzero `R` are purely periodic with least period 65,535, and over one period
each byte `0x01..0xFF` occurs 256 times and `0x00` occurs 255 times. -/
def Obligations.OutputStreamHasTheFullPeriod : Prop :=
  ∀ s r v (b : Nat → Byte), s.regs = .defined r v → r ≠ 0#16 →
    (∀ n, ∃ t, execTimes .gen (n + 1) s = .next t ∧ randO t = .ok (b n)) →
    (∀ n, b (n + 65535) = b n) ∧
    (∀ k, 0 < k → k < 65535 → ∃ n, b (n + k) ≠ b n) ∧
    (∀ x : Byte, ((List.range 65535).filter (fun n => b n == x)).length = if x = 0x00#8 then 255 else 256)

/-- R81. Two consecutive output bytes determine the register: its low byte is the first one, its high byte the
unique `h` whose product's low byte is the second one. -/
def Obligations.TwoOutputsDetermineTheState : Prop :=
  ∀ s t u r v o o', s.regs = .defined r v →
    exec .gen s = .next t → randO t = .ok o → exec .gen t = .next u → randO u = .ok o' →
    ∃ h : Byte, t.regs = .defined (h ++ o) true ∧
      (clmul h 0x2D#8).extractLsb' 0 8 = o' ∧
      ∀ h' : Byte, (clmul h' 0x2D#8).extractLsb' 0 8 = o' → h' = h

/-- R82, R83. No command raises anything: `NOP` and `INIT` answer a next state from every state, `GEN` from every
state whose registers hold a value; `R` and `V` are all they change; the output is in `0..255`. -/
def Obligations.EveryCommandCompletes : Prop :=
  (∀ s, ∃ rv, exec .nop s = .next { s with regs := rv }) ∧
  (∀ s seed, ∃ rv, exec (.init seed) s = .next { s with regs := rv }) ∧
  (∀ s, Initialised s → ∃ t b, exec .gen s = .next t ∧ t = { s with regs := t.regs } ∧ Initialised t ∧
    randO t = .ok b ∧ b.toNat ≤ 255)

/-- The frame: what a command leaves unchanged when it answers a next state. All three leave the host's list and
the position; `NOP` leaves `R`; the block has no memory and no other register (spec/10_state.md R22, R32). -/
def Obligations.CommandsLeaveTheRestUnchanged : Prop :=
  (∀ i s t, exec i s = .next t → t.input = s.input ∧ t.pos = s.pos) ∧
  (∀ s t, exec .nop s = .next t → stateO t = stateO s ∧ randO t = randO s)

/-- R38. `NOP` repeated and `INIT s` repeated are idempotent; `GEN` is not: each one advances a nonzero `R`. -/
def Obligations.IdempotencyOfTheCommands : Prop :=
  (∀ s n, execTimes .nop (n + 1) s = exec .nop s) ∧
  (∀ s seed n, execTimes (.init seed) (n + 1) s = exec (.init seed) s) ∧
  (∀ s t r v, s.regs = .defined r v → r ≠ 0#16 → exec .gen s = .next t → stateO t ≠ stateO s)

/-! ## Registers, ports and the uninitialised state -/

/-- R18. `R` takes a new value only at a reset (`RESET_SEED`), an `INIT` (its seed) or a `GEN`; an edge with the
reserved command is refused. -/
def Obligations.OnlyResetInitAndGenWriteR : Prop :=
  (∀ p s t, stepWith p s = .next t → stateO t ≠ stateO s →
    ∃ e rest, s.input = e :: rest ∧
      ((levelBit e.rst = some true ∧ stateO t = .ok p) ∨
       (levelBit e.rst = some false ∧ busValue e.cmd = some 0b10#2 ∧
         ∃ seed, busValue e.seed = some seed ∧ stateO t = .ok seed) ∨
       (levelBit e.rst = some false ∧ busValue e.cmd = some 0b01#2 ∧
         ∃ r v, s.regs = .defined r v ∧ stateO t = .ok (generate r)))) ∧
  (∀ p s e rest, s.input = e :: rest → levelBit e.rst = some false → busValue e.cmd = some 0b11#2 →
    stepWith p s = .refused .reservedCommand)

/-- R21. After an accepted edge, `V` is 1 exactly when the edge was a `GEN` (and then `rand_o` holds the byte it
returned), else 0; no command's result depends on `V`. -/
def Obligations.ValidFlagSaysTheLastEdgeWasGen : Prop :=
  (∀ p s t e rest, s.input = e :: rest → stepWith p s = .next t → Initialised t →
    (randValidO t = .ok true ↔ levelBit e.rst = some false ∧ busValue e.cmd = some 0b01#2) ∧
    (randValidO t = .ok false ↔ ¬(levelBit e.rst = some false ∧ busValue e.cmd = some 0b01#2)) ∧
    (randValidO t = .ok true → ∃ r v, s.regs = .defined r v ∧ randO t = .ok (generatedByte r))) ∧
  (∀ (i : Instr) (s : State) (r : Word) (v v' : Bool),
    exec i { s with regs := .defined r v } = exec i { s with regs := .defined r v' })

/-- R33. `INIT` puts the level of each wire of `seed_i` into the bit of `R` with the same number; `rand_o[i]` and
`state_o[i]` show `R[i]`. -/
def Obligations.PinsMapToBitsWithoutSwap : Prop :=
  (∀ p s e rest seed, s.input = e :: rest → levelBit e.rst = some false → busValue e.cmd = some 0b10#2 →
    busValue e.seed = some seed →
    ∃ t r, stepWith p s = .next t ∧ stateO t = .ok r ∧
      ∀ i < 16, (e.seed.wires[i]?).bind levelBit = some (r.getLsbD i)) ∧
  (∀ s r v, s.regs = .defined r v →
    ∃ b x, randO s = .ok b ∧ stateO s = .ok x ∧ (∀ i < 8, b.getLsbD i = r.getLsbD i) ∧
      ∀ i < 16, x.getLsbD i = r.getLsbD i)

/-- R29. At power-up the registers hold no value: a `GEN` and a read of any output fault, a `NOP` leaves the state
as it is, an `INIT` writes both registers, and from then on every step keeps them defined. -/
def Obligations.UninitialisedUntilResetOrInit : Prop :=
  State.powerUp.regs = .uninitialised ∧
  (∀ s, s.regs = .uninitialised →
    exec .gen s = .fault .uninitialisedState ∧
    randO s = .error .uninitialisedState ∧ randValidO s = .error .uninitialisedState ∧
    stateO s = .error .uninitialisedState ∧
    exec .nop s = .next s ∧
    ∀ seed, exec (.init seed) s = .next { s with regs := .defined seed false }) ∧
  (∀ p s t, Initialised s → stepWith p s = .next t → Initialised t)

/-! ## Edges, reset and steps -/

/-- R95. At an edge with `rst_i = 1`, whatever `cmd_i` and `seed_i` carry (reserved or unknown too), `R` takes
`RESET_SEED` and `V` takes 0, from every state, for every `RESET_SEED`. -/
def Obligations.ResetEdgeLoadsTheResetSeed : Prop :=
  ∀ (p : Word) (cmd : Bus 2) (seed : Bus 16) (rest : List Edge) (s : State),
    s.input = { rst := .one, cmd := cmd, seed := seed } :: rest →
    stepWith p s = .next { regs := .defined p false, input := rest, pos := s.pos + 1 }

/-- R96. Holding reset for more edges gives the same registers as one edge, and the first edge without reset after
it executes its command from them. -/
def Obligations.HeldResetIsOneReset : Prop :=
  ∀ (p : Word) (n : Nat) (e : Edge) (i : Instr) (s : State),
    e.rst = .zero → decodePins e = .ok i →
    runAll p (withEdges (List.replicate (n + 1) resetEdge) s) =
      .next { regs := .defined p false, input := [], pos := s.pos + (n + 1) } ∧
    runAll p (withEdges (List.replicate (n + 1) resetEdge ++ [e]) s) =
      exec i { regs := .defined p false, input := [], pos := s.pos + (n + 2) }

/-- R97. Straight after reset `state_o = RESET_SEED`, `rand_o = RESET_SEED[7:0]`, `rand_valid_o = 0`: for the
state after a reset edge and for the reset state, for every `RESET_SEED`. -/
def Obligations.OutputsStraightAfterReset : Prop :=
  ∀ (p : Word) (s t : State), (s = applyReset p t ∨ s = State.resetWith p) →
    stateO s = .ok p ∧ randO s = .ok (p.extractLsb' 0 8) ∧ randValidO s = .ok false

/-- R98. Reset is construction with the seed `RESET_SEED`: whatever edges follow, a run that begins with a reset
edge is observed like the run that begins with `INIT RESET_SEED`; a `GEN` straight after reset completes. For every
`RESET_SEED`. -/
def Obligations.ResetIsConstructionWithTheResetSeed : Prop :=
  (∀ (p : Word) (cmd : Bus 2) (seed : Bus 16) (es : List Edge) (s : State),
    observe p ({ rst := .one, cmd := cmd, seed := seed } :: es) s =
      observe p (commandEdge (encode (.init p)) :: es) s) ∧
  (∀ p : Word, exec .gen (State.resetWith p) =
    .next { State.resetWith p with regs := .defined (closedForm p) true })

/-- R91. Each edge takes exactly one outcome, checked in the rule's order. -/
def Obligations.EdgeOutcomesInOrder : Prop :=
  ∀ (p : Word) (s : State) (e : Edge) (rest : List Edge), s.input = e :: rest →
    (levelBit e.rst = none → stepWith p s = .refused .unknownInput) ∧
    (levelBit e.rst = some true →
      stepWith p s = .next { regs := .defined p false, input := rest, pos := s.pos + 1 }) ∧
    (levelBit e.rst = some false → busValue e.cmd = none → stepWith p s = .refused .unknownInput) ∧
    (levelBit e.rst = some false → busValue e.cmd = some 0b10#2 → busValue e.seed = none →
      stepWith p s = .refused .unknownInput) ∧
    (levelBit e.rst = some false → busValue e.cmd = some 0b11#2 → stepWith p s = .refused .reservedCommand) ∧
    (levelBit e.rst = some false → busValue e.cmd = some 0b01#2 → s.regs = .uninitialised →
      stepWith p s = .fault .uninitialisedState) ∧
    (levelBit e.rst = some false → busValue e.cmd = some 0b01#2 → ∀ r v, s.regs = .defined r v →
      stepWith p s = .next { regs := .defined (generate r) true, input := rest, pos := s.pos + 1 }) ∧
    (levelBit e.rst = some false → busValue e.cmd = some 0b00#2 →
      ∃ t, stepWith p s = .next t ∧ t.input = rest ∧ t.pos = s.pos + 1 ∧ stateO t = stateO s ∧
        ∀ r v, s.regs = .defined r v → t.regs = .defined r false) ∧
    (levelBit e.rst = some false → busValue e.cmd = some 0b10#2 → ∀ seed, busValue e.seed = some seed →
      stepWith p s = .next { regs := .defined seed false, input := rest, pos := s.pos + 1 })

/-- R90. An unknown value is refused on `rst_i`, on `cmd_i` without reset, on `seed_i` with `INIT`, and nowhere
else; an unknown `seed_i` has no effect with any other command. -/
def Obligations.UnknownInputsAreRefused : Prop :=
  (∀ p s e rest, s.input = e :: rest →
    (stepWith p s = .refused .unknownInput ↔
      levelBit e.rst = none ∨
      (levelBit e.rst = some false ∧
        (busValue e.cmd = none ∨ (busValue e.cmd = some 0b10#2 ∧ busValue e.seed = none))))) ∧
  (∀ p s e seed', busValue e.cmd ≠ some 0b10#2 →
    acceptEdge p { e with seed := seed' } s = acceptEdge p e s)

/-- A bus is unknown exactly when one of its wires carries X or Z, and it has the value `v` exactly when it is driven
with `v`. How far one unknown wire reaches is the model's reading of R90 (log entry 6). -/
def Obligations.BusIsKnownExactlyWhenEveryWireIs : Prop :=
  (∀ n (b : Bus n), busValue b = none ↔ ∃ l ∈ b.wires, l = .x ∨ l = .z) ∧
  (∀ n (v : BitVec n) (b : Bus n), busValue b = some v ↔ b = busDrive v)

/-- From R88. The outcomes that give no next state, each with exactly its condition, and no other; a read of an output
faults exactly in the uninitialised state; once a run has stopped it stays so, whatever edges follow. That the
mark of R88 is the stopping outcome is the model's (log entry 8). -/
def Obligations.StopsAreExactlyTheThreeOutcomes : Prop :=
  (∀ p s why, stepWith p s = .fault why ↔
    why = .uninitialisedState ∧ s.regs = .uninitialised ∧
      ∃ e rest, s.input = e :: rest ∧ levelBit e.rst = some false ∧ busValue e.cmd = some 0b01#2) ∧
  (∀ p s why, stepWith p s = .refused why ↔
    ∃ e rest, s.input = e :: rest ∧
      ((why = .unknownInput ∧ levelBit e.rst = none) ∨
       (why = .unknownInput ∧ levelBit e.rst = some false ∧
         (busValue e.cmd = none ∨ (busValue e.cmd = some 0b10#2 ∧ busValue e.seed = none))) ∨
       (why = .reservedCommand ∧ levelBit e.rst = some false ∧ busValue e.cmd = some 0b11#2))) ∧
  (∀ s why, (randO s = .error why ↔ s.regs = .uninitialised ∧ why = .uninitialisedState) ∧
    (randValidO s = .error why ↔ s.regs = .uninitialised ∧ why = .uninitialisedState) ∧
    (stateO s = .error why ↔ s.regs = .uninitialised ∧ why = .uninitialisedState)) ∧
  (∀ p k m s why, runSteps p k s = .fault why → runSteps p (k + m) s = .fault why) ∧
  (∀ p k m s why, runSteps p k s = .refused why → runSteps p (k + m) s = .refused why)

/-- A step runs the decoded command: when the next edge has `rst_i = 0` and its pins decode to `i`, the step is
`exec i` at the state with that edge taken from the host's list and the position one further. -/
def Obligations.StepRunsTheDecodedCommand : Prop :=
  ∀ (p : Word) (s : State) (e : Edge) (rest : List Edge) (i : Instr),
    s.input = e :: rest → levelBit e.rst = some false → decodePins e = .ok i → i.wellFormed = true →
    stepWith p s = exec i { s with input := rest, pos := s.pos + 1 } ∧
    step s = exec i { s with input := rest, pos := s.pos + 1 }

/-- The word offered by `withFetchWord` is the one the next step runs (the model's own interface, log entries 3 and
12): at that step the host's list is again what it was. -/
def Obligations.OfferedWordIsRunNext : Prop :=
  ∀ (s : State) (nbits w : Nat) (i : Instr), decodeTableWord nbits w = some i →
    step (s.withFetchWord nbits w) = exec i { s with pos := s.pos + 1 }

/-- R30. The position advances by one at every accepted edge, reset edges too. With no edge left a step changes
nothing: the model's choice, log entry 4. -/
def Obligations.PositionCountsTheAcceptedEdges : Prop :=
  (∀ p s t e rest, s.input = e :: rest → stepWith p s = .next t → t.pos = s.pos + 1 ∧ t.input = rest) ∧
  (∀ p s, s.input = [] → stepWith p s = .next s)

/-! ## Invariants -/

/-- The invariant that every step keeps: the registers hold a value (R29) and the position plus the number of edges
still to come is the length `n` of the host's list (R30). -/
def Obligations.StepKeepsRegistersDefinedAndPositionExact : Prop :=
  ∀ (p : Word) (n : Nat) (s t : State),
    Initialised s ∧ s.pos + s.input.length = n → stepWith p s = .next t →
    Initialised t ∧ t.pos + t.input.length = n

/-- Every step keeps the state non-degenerate: a nonzero `R` stays nonzero while the host sends no zero seed
(R78, R84, R99). -/
def Obligations.StepKeepsTheStateNonDegenerate : Prop :=
  ∀ (p : Word) (s t : State), NonDegenerate p s → stepWith p s = .next t → NonDegenerate p t

/-- Both invariants hold straight after reset: the first for every `RESET_SEED`, the second for every nonzero
one. That the position is 0 and no edge is waiting at reset is the model's choice (log entries 3 and 5), no rule of
the spec. -/
def Obligations.InvariantsHoldAtReset : Prop :=
  (∀ p : Word, Initialised (State.resetWith p) ∧
    (State.resetWith p).pos + (State.resetWith p).input.length = 0) ∧
  Initialised State.reset ∧
  (∀ p : Word, p ≠ 0#16 → NonDegenerate p (State.resetWith p))

/-! ## Encoding and the assembler -/

/-- R47. For every 18-bit word exactly one row matches, and the decoder reads `op` and nothing else to choose it. -/
def Obligations.EveryWordMatchesExactlyOneRow : Prop :=
  ∀ w : CommandWord,
    (decode w = .ok .nop ↔ w &&& 0x30000#18 = 0x00000#18) ∧
    (decode w = .ok .gen ↔ w &&& 0x30000#18 = 0x10000#18) ∧
    ((∃ seed, decode w = .ok (.init seed)) ↔ w &&& 0x30000#18 = 0x20000#18) ∧
    (decode w = .error .reservedCommand ↔ w &&& 0x30000#18 = 0x30000#18) ∧
    (w &&& 0x30000#18 = 0x00000#18 ∨ w &&& 0x30000#18 = 0x10000#18 ∨ w &&& 0x30000#18 = 0x20000#18 ∨
      w &&& 0x30000#18 = 0x30000#18)

/-- R48. `cmd_i[0]` is the generate strobe and `cmd_i[1]` the init strobe; neither is `NOP`, both is reserved. -/
def Obligations.OpBitsAreStrobes : Prop :=
  ∀ cmd : BitVec 2,
    (opOf cmd = .nop ↔ cmd.getLsbD 0 = false ∧ cmd.getLsbD 1 = false) ∧
    (opOf cmd = .gen ↔ cmd.getLsbD 0 = true ∧ cmd.getLsbD 1 = false) ∧
    (opOf cmd = .init ↔ cmd.getLsbD 0 = false ∧ cmd.getLsbD 1 = true) ∧
    (opOf cmd = .reserved ↔ cmd.getLsbD 0 = true ∧ cmd.getLsbD 1 = true)

/-- Decode and encode agree for every command with every operand: as a word, on driven pins, and as a word of the
opcode table of 18 or 24 bits; and a word decodes to a command only if it is that command's word up to the bits
`NOP` and `GEN` ignore (R47, R49, R50). -/
def Obligations.DecodeAndEncodeAgree : Prop :=
  (∀ i : Instr, i.wellFormed = true →
    decode (encode i) = .ok i ∧ decodePins (commandEdge (encode i)) = .ok i ∧
    decodeTableWord 18 (encode i).toNat = some i ∧ decodeTableWord 24 (encode i).toNat = some i) ∧
  (∀ (w : CommandWord) (i : Instr), decode w = .ok i → encode i = canonicalWord w)

/-- A few words written out from the encodings of R47 decode to the commands they stand for (a sanity claim). -/
def Obligations.WrittenOutWordsDecode : Prop :=
  decode 0b00_0000000000000000#18 = .ok .nop ∧
  decode 0b00_0001001000110100#18 = .ok .nop ∧
  decode 0b01_0000000000000000#18 = .ok .gen ∧
  decode 0b01_1111111111111111#18 = .ok .gen ∧
  decode 0b10_1011101010111110#18 = .ok (.init 0xBABE#16) ∧
  decode 0b10_0000000000000001#18 = .ok (.init 0x0001#16) ∧
  decode 0b11_0000000000000000#18 = .error .reservedCommand

/-- From R57. The canonical words; the disassembler prints any word with `op = 00` as `NOP`, any with `op = 01` as
`GEN`, and `op = 11` as `.reserved 0x<W>`. That `W` is printed in five upper-case hexadecimal digits is the model's
choice (log entry 14). -/
def Obligations.CanonicalWordsAndDisassembly : Prop :=
  assembleLine .nop = .ok [commandEdge 0x00000#18] ∧
  assembleLine .gen = .ok [commandEdge 0x10000#18] ∧
  (∀ v, v ≤ 65535 → assembleLine (.init v) = .ok [commandEdge (0x20000#18 ||| BitVec.ofNat 18 v)]) ∧
  assembleLine (.init 0xBABE) = .ok [commandEdge 0x2BABE#18] ∧
  (∀ w : CommandWord, w &&& 0x30000#18 = 0x00000#18 → listingText (disassemble w) = ['N', 'O', 'P']) ∧
  (∀ w : CommandWord, w &&& 0x30000#18 = 0x10000#18 → listingText (disassemble w) = ['G', 'E', 'N']) ∧
  (∀ w : CommandWord, w &&& 0x30000#18 = 0x30000#18 →
    disassemble w = .reserved w ∧
    listingText (disassemble w) =
      ['.', 'r', 'e', 's', 'e', 'r', 'v', 'e', 'd', ' ', '0', 'x'] ++ hexText 5 w.toNat)

/-- R56. `GEN*n` and `NOP*n` expand to `n` canonical words, `n = 0` is rejected, and running the expansion
leaves the registers that `n` executions of the command leave: of `GEN*n` from defined registers, of `NOP*n` from
every state. -/
def Obligations.PseudoInstructionsExpand : Prop :=
  (∀ n, 1 ≤ n → assembleLine (.genTimes n) = .ok (List.replicate n (commandEdge 0x10000#18))) ∧
  (∀ n, 1 ≤ n → assembleLine (.nopTimes n) = .ok (List.replicate n (commandEdge 0x00000#18))) ∧
  (assembleLine (.genTimes 0) = .error .zeroCount ∧ assembleLine (.nopTimes 0) = .error .zeroCount) ∧
  (∀ p n s es, Initialised s → assembleLine (.genTimes n) = .ok es →
    ∃ t u, runAll p (withEdges es s) = .next t ∧ execTimes .gen n s = .next u ∧ t.regs = u.regs) ∧
  (∀ p n s es, assembleLine (.nopTimes n) = .ok es →
    ∃ t u, runAll p (withEdges es s) = .next t ∧ execTimes .nop n s = .next u ∧ t.regs = u.regs)

/-- R55, in part. An operand of `INIT` outside `0..65535` is rejected; one inside reaches the pins of `seed_i`
with its value; `RESET` is one edge with `rst_i = 1`. -/
def Obligations.AssemblerChecksTheSeedRange : Prop :=
  (∀ v, 65535 < v → assembleLine (.init v) = .error .operandTooLarge) ∧
  (∀ v, v ≤ 65535 → ∃ e, assembleLine (.init v) = .ok [e] ∧ e.rst = .zero ∧
    decodePins e = .ok (.init (BitVec.ofNat 16 v)) ∧ (BitVec.ofNat 16 v).toNat = v) ∧
  (∃ e, assembleLine .reset = .ok [e] ∧ e.rst = .one)

/-! ## Runs -/

/-- R62, R63. After `INIT seed` the observation of a run is the same whatever happened before the `INIT`, for any
edges that follow. -/
def Obligations.InitErasesThePast : Prop :=
  ∀ (p : Word) (seed : Word) (es : List Edge) (s s' : State),
    observe p (commandEdge (encode (.init seed)) :: es) s =
      observe p (commandEdge (encode (.init seed)) :: es) s'

/-- R99. The boot order gives the host its sequence: from any state, `INIT seed` and `n` `GEN`s, unmarked, with the
collected bytes the ones of the generator's successive values, and the final `R` the last of them. -/
def Obligations.BootOrderYieldsTheSequence : Prop :=
  ∀ (p seed : Word) (n : Nat) (s : State),
    let seen := observe p (commandEdge (encode (.init seed)) :: List.replicate n (commandEdge (encode .gen))) s
    seen.mark = none ∧ seen.finalState = some (generate^[n] seed) ∧
    collectedBytes seen.outputs = (List.range n).map (fun k => generatedByte (generate^[k] seed))

/-- From R41 and R88. Edges take effect in order, each seeing the state the earlier ones left: a run over two lists is
the run over the second from the state the first ends in (R41), and stops where the first stops (the kept mark of R88;
that the mark is the stopping outcome is the model's, log entry 8). -/
def Obligations.RunsComposeInOrder : Prop :=
  ∀ (p : Word) (es es' : List Edge) (s : State),
    (∀ t, runAll p (withEdges es s) = .next t →
      runAll p (withEdges (es ++ es') s) = runAll p (withEdges es' t)) ∧
    (∀ why, runAll p (withEdges es s) = .fault why → runAll p (withEdges (es ++ es') s) = .fault why) ∧
    (∀ why, runAll p (withEdges es s) = .refused why → runAll p (withEdges (es ++ es') s) = .refused why)

/-- R100. No hazard: of two commands at consecutive edges the second works on what the first left; a `GEN` straight
after `INIT seed` uses the seed, back-to-back `GEN`s each advance `R` once, an `INIT` straight after a `GEN`
replaces its result. -/
def Obligations.ConsecutiveCommandsSeeEachOther : Prop :=
  (∀ p i j s t u, exec i s = .next t → exec j t = .next u →
    ∃ w, runAll p (withEdges [commandEdge (encode i), commandEdge (encode j)] s) = .next w ∧ w.regs = u.regs) ∧
  (∀ p s seed, ∃ w, runAll p (withEdges [commandEdge (encode (.init seed)), commandEdge (encode .gen)] s) = .next w ∧
    w.regs = .defined (generate seed) true) ∧
  (∀ p s r v, s.regs = .defined r v →
    ∃ w, runAll p (withEdges [commandEdge (encode .gen), commandEdge (encode .gen)] s) = .next w ∧
      w.regs = .defined (generate (generate r)) true) ∧
  (∀ p s r v seed, s.regs = .defined r v →
    ∃ w, runAll p (withEdges [commandEdge (encode .gen), commandEdge (encode (.init seed))] s) = .next w ∧
      w.regs = .defined seed false)

/-- R103. A run has no fault and no refusal exactly when the host keeps its duties at every edge; its observation,
which reads the outputs after each edge (log entry 9), is unmarked exactly when the outputs may be read there too. -/
def Obligations.DutiesKeptExactlyWhenUnmarked : Prop :=
  ∀ (p : Word) (s : State),
    (dutiesKept s.input (isDefined s.regs) = true ↔ Unmarked p s) ∧
    (dutiesKept s.input (isDefined s.regs) = true ∧ readsAllowed s.input (isDefined s.regs) = true ↔
      (observe p s.input s).mark = none)

/-- R106. From a state whose registers hold a value, the observation agrees with the run: after each edge that is
accepted it lists the values of `rand_o` and `rand_valid_o` in the state the run is then in; where the run ends it is
unmarked, with the final `R` and no further pair; where the run is refused it is marked with that refusal. From every
state, a run that faults is marked with its fault. That observing is reading, and that a marked
run shows no final state, are the model's (log entries 9 and 10). -/
def Obligations.ObservationAgreesWithTheRun : Prop :=
  (∀ (p : Word) (s : State), Initialised s →
    (∀ t, runAll p s = .next t →
      (observe p s.input s).mark = none ∧
      (∃ r v, t.regs = .defined r v ∧ (observe p s.input s).finalState = some r) ∧
      (observe p s.input s).outputs.length = s.input.length) ∧
    (∀ why, runAll p s = .refused why → (observe p s.input s).mark = some (.refusal why)) ∧
    (∀ k u, k < s.input.length → runSteps p (k + 1) s = .next u →
      ∃ byte valid, randO u = .ok byte ∧ randValidO u = .ok valid ∧
        (observe p s.input s).outputs[k]? = some (byte, valid))) ∧
  (∀ (p : Word) (s : State) why, runAll p s = .fault why → (observe p s.input s).mark = some (.fault why))
end

