-- ==== Sys2Proof/Laws/Chain.lean ====
section
/-! SUPPORT. The Galois step is linear over XOR, and its iterates compose (spec/41_generate.md R75). -/

namespace Sys2Proof.Machine

theorem galoisStep_xor (a b : Word) : galoisStep (a ^^^ b) = galoisStep a ^^^ galoisStep b := by
  have hshift : (a ^^^ b) <<< 1 = a <<< 1 ^^^ b <<< 1 := BitVec.shiftLeft_xor_distrib a b 1
  simp only [galoisStep, BitVec.getLsbD_xor, hshift]
  cases a.getLsbD 15 <;> cases b.getLsbD 15 <;> simp <;> ac_nf
  simp

theorem galoisSteps_xor (n : Nat) (a b : Word) :
    galoisSteps n (a ^^^ b) = galoisSteps n a ^^^ galoisSteps n b := by
  induction n generalizing a b with
  | zero => rfl
  | succ n ih => rw [galoisSteps, galoisStep_xor, ih]; rfl

theorem galoisSteps_add (m n : Nat) (s : Word) : galoisSteps (m + n) s = galoisSteps n (galoisSteps m s) := by
  induction m generalizing s with
  | zero => simp [galoisSteps]
  | succ m ih => rw [Nat.succ_add, galoisSteps, ih]; rfl

end Sys2Proof.Machine
end

