-- ==== Sys2Proof/Laws/Pins.lean ====
section
/-! SUPPORT. Driving a bus and sampling it (spec/10_state.md R23, spec/60_exceptions.md R90). -/

namespace Sys2Proof.Machine

@[simp] theorem levelBit_levelOf (b : Bool) : levelBit (levelOf b) = some b := by cases b <;> rfl

/-- Driven wires carry the low bits of the number they are driven with. -/
theorem levelsValue_levelsOf (n v : Nat) : levelsValue (levelsOf n v) = some (v % 2 ^ n) := by
  induction n generalizing v with
  | zero => simp [levelsOf, levelsValue, Nat.mod_one]
  | succ n ih =>
    have hbit : (v.testBit 0).toNat = v % 2 := by
      rcases Nat.mod_two_eq_zero_or_one v with h | h <;> simp [Nat.testBit_zero, h]
    have hsplit : v % 2 ^ (n + 1) = v % 2 + 2 * (v / 2 % 2 ^ n) := by
      rw [Nat.pow_succ, Nat.mul_comm, Nat.mod_mul]
    simp only [levelsOf, levelsValue, levelBit_levelOf, ih, hbit, hsplit]

/-- A driven bus carries the value it is driven with. -/
@[simp] theorem busValue_busDrive {n : Nat} (v : BitVec n) : busValue (busDrive v) = some v := by
  simp [busValue, busDrive, levelsValue_levelsOf, Nat.mod_eq_of_lt v.isLt]

/-- The wires of a list carry a number exactly when none of them is unknown. -/
theorem levelsValue_eq_none (ls : List Level) : levelsValue ls = none ↔ ∃ l ∈ ls, levelBit l = none := by
  induction ls with
  | nil => simp [levelsValue]
  | cons l ls ih =>
    cases hl : levelBit l <;> cases hv : levelsValue ls <;> simp_all [levelsValue]

/-- A known list of wires carries on each wire the bit of its value. -/
theorem getElem_of_levelsValue {ls : List Level} {v : Nat} (h : levelsValue ls = some v) (i : Nat)
    (hi : i < ls.length) : levelBit ls[i] = some (v.testBit i) := by
  induction ls generalizing v i with
  | nil => simp at hi
  | cons l ls ih =>
    cases hl : levelBit l with
    | none => simp [levelsValue, hl] at h
    | some b =>
      cases hv : levelsValue ls with
      | none => simp [levelsValue, hl, hv] at h
      | some u =>
        obtain rfl : b.toNat + 2 * u = v := by simpa [levelsValue, hl, hv] using h
        cases i with
        | zero => cases b <;> simp [hl, Nat.testBit_zero, Nat.add_mod]
        | succ i =>
          have hhalf : (b.toNat + 2 * u) / 2 = u := by
            cases b <;> simp
            omega
          simpa [Nat.testBit_succ, hhalf] using ih hv i (by simpa using hi)

end Sys2Proof.Machine
end

