-- ==== Sys2Proof/Laws/Decode.lean ====
section
/-! SUPPORT. The decoder on each row of the opcode map, and on driven pins (spec/30_encoding.md R47, R49, R50). -/

namespace Sys2Proof

open Machine

@[simp] theorem opOf_nop : opOf 0b00#2 = .nop := by decide
@[simp] theorem opOf_gen : opOf 0b01#2 = .gen := by decide
@[simp] theorem opOf_init : opOf 0b10#2 = .init := by decide
@[simp] theorem opOf_reserved : opOf 0b11#2 = .reserved := by decide

@[simp] theorem decodeFields_nop (imm : Option Word) : decodeFields 0b00#2 imm = .ok .nop := rfl
@[simp] theorem decodeFields_gen (imm : Option Word) : decodeFields 0b01#2 imm = .ok .gen := rfl
@[simp] theorem decodeFields_init (seed : Word) : decodeFields 0b10#2 (some seed) = .ok (.init seed) := rfl
@[simp] theorem decodeFields_init_unknown : decodeFields 0b10#2 none = .error .unknownInput := rfl
@[simp] theorem decodeFields_reserved (imm : Option Word) :
    decodeFields 0b11#2 imm = .error .reservedCommand := rfl

/-- A 2-bit `op` is one of the four rows of R47. -/
theorem op_cases (cmd : BitVec 2) : cmd = 0b00#2 ∨ cmd = 0b01#2 ∨ cmd = 0b10#2 ∨ cmd = 0b11#2 := by
  revert cmd; decide

/-- Pins driven with a command word carry what the word decodes to. -/
@[simp] theorem decodePins_commandEdge (w : CommandWord) : decodePins (commandEdge w) = decode w := by
  simp [decodePins, commandEdge, decode, opField, immField]

/-- The ignored `seed_i` does not matter where the command is not `INIT` (R50). -/
theorem decodePins_seed_ignored {e : Edge} (seed' : Bus 16) (h : busValue e.cmd ≠ some 0b10#2) :
    decodePins { e with seed := seed' } = decodePins e := by
  unfold decodePins
  cases hc : busValue e.cmd with
  | none => simp
  | some cmd =>
    rcases op_cases cmd with rfl | rfl | rfl | rfl <;> simp_all

end Sys2Proof
end

