-- ==== Sys2Proof/Laws/State.lean ====
section
/-! SUPPORT. The fields of a state after each update (spec/10_state.md R22, R30). -/

namespace Sys2Proof.Machine

@[simp] theorem writeRegs_regs (r : Word) (v : Bool) (s : State) : (writeRegs r v s).regs = .defined r v := rfl
@[simp] theorem writeRegs_input (r : Word) (v : Bool) (s : State) : (writeRegs r v s).input = s.input := rfl
@[simp] theorem writeRegs_pos (r : Word) (v : Bool) (s : State) : (writeRegs r v s).pos = s.pos := rfl

@[simp] theorem takeEdge_regs (rest : List Edge) (s : State) : (takeEdge rest s).regs = s.regs := rfl
@[simp] theorem takeEdge_input (rest : List Edge) (s : State) : (takeEdge rest s).input = rest := rfl
@[simp] theorem takeEdge_pos (rest : List Edge) (s : State) : (takeEdge rest s).pos = s.pos + 1 := rfl

@[simp] theorem offerCommand_regs (w : CommandWord) (s : State) : (offerCommand w s).regs = s.regs := rfl
@[simp] theorem offerCommand_input (w : CommandWord) (s : State) :
    (offerCommand w s).input = commandEdge w :: s.input := rfl
@[simp] theorem offerCommand_pos (w : CommandWord) (s : State) : (offerCommand w s).pos = s.pos := rfl

@[simp] theorem applyReset_regs (p : Word) (s : State) : (applyReset p s).regs = .defined p false := rfl
@[simp] theorem applyReset_input (p : Word) (s : State) : (applyReset p s).input = s.input := rfl
@[simp] theorem applyReset_pos (p : Word) (s : State) : (applyReset p s).pos = s.pos := rfl

@[simp] theorem clearValid_input (s : State) : (clearValid s).input = s.input := by
  unfold clearValid; split <;> rfl
@[simp] theorem clearValid_pos (s : State) : (clearValid s).pos = s.pos := by
  unfold clearValid; split <;> rfl

/-- `V <- 0` where the registers hold a value. -/
theorem clearValid_of_defined {s : State} {r : Word} {v : Bool} (h : s.regs = .defined r v) :
    clearValid s = writeRegs r false s := by
  simp [clearValid, h]

/-- Nothing to clear where the registers hold no value. -/
theorem clearValid_of_uninitialised {s : State} (h : s.regs = .uninitialised) : clearValid s = s := by
  simp [clearValid, h]

end Sys2Proof.Machine
end

