-- ==== Sys2Proof/Laws/Exec.lean ====
section
/-! SUPPORT. What each shared operation, each command and each edge can do, said once. -/

namespace Sys2Proof.Machine

/-- The ports read from held registers (spec/10_state.md R24). -/
@[simp] theorem randO_of_defined {s : State} {r : Word} {v : Bool} (h : s.regs = .defined r v) :
    randO s = .ok (lowByte r) := by simp [randO, h]
@[simp] theorem randValidO_of_defined {s : State} {r : Word} {v : Bool} (h : s.regs = .defined r v) :
    randValidO s = .ok v := by simp [randValidO, h]
@[simp] theorem stateO_of_defined {s : State} {r : Word} {v : Bool} (h : s.regs = .defined r v) :
    stateO s = .ok r := by simp [stateO, h]

/-- All `GEN` can do: fault where no value is held, else write `R` and `V`. -/
theorem execGen_cases (s : State) :
    (s.regs = .uninitialised ∧ execGen s = .fault .uninitialisedState) ∨
    ∃ r v, s.regs = .defined r v ∧ execGen s = .next (writeRegs (generate r) true s) := by
  cases h : s.regs with
  | uninitialised => exact .inl ⟨rfl, by simp [execGen, h]⟩
  | defined r v => exact .inr ⟨r, v, rfl, by simp [execGen, h]⟩

/-- All a command that answers a next state can do to the state: the registers change as its rule says, the
host's list and the position stay. -/
theorem exec_next_cases {i : Instr} {s t : State} (h : exec i s = .next t) :
    (i = .nop ∧ t = clearValid s) ∨
    (i = .gen ∧ ∃ r v, s.regs = .defined r v ∧ t = writeRegs (generate r) true s) ∨
    (∃ seed, i = .init seed ∧ t = writeRegs seed false s) := by
  cases i with
  | nop => exact .inl ⟨rfl, by simpa [exec, execNop] using h.symm⟩
  | gen =>
    rcases execGen_cases s with ⟨-, hg⟩ | ⟨r, v, hr, hg⟩
    · simp [exec, hg] at h
    · exact .inr (.inl ⟨rfl, r, v, hr, by simpa [exec, hg] using h.symm⟩)
  | init seed => exact .inr (.inr ⟨seed, rfl, by simpa [exec, execInit] using h.symm⟩)

/-- `GEN` where the registers hold a value. -/
theorem exec_gen_of_defined {s : State} {r : Word} {v : Bool} (h : s.regs = .defined r v) :
    exec .gen s = .next (writeRegs (generate r) true s) := by simp [exec, execGen, h]

/-- No command is refused: only an edge can be. -/
theorem exec_ne_refused {i : Instr} {s : State} {why : Refusal} : exec i s ≠ .refused why := by
  cases i with
  | nop => simp [exec, execNop]
  | gen => rcases execGen_cases s with ⟨-, h⟩ | ⟨_, _, -, h⟩ <;> simp [exec, h]
  | init seed => simp [exec, execInit]

/-- A command looks at the registers alone: from two states with the same ones it does the same to them. -/
theorem exec_of_same_regs (i : Instr) {s s' : State} (h : s.regs = s'.regs) :
    (∃ rv, exec i s = .next { s with regs := rv } ∧ exec i s' = .next { s' with regs := rv }) ∨
    (exec i s = .fault .uninitialisedState ∧ exec i s' = .fault .uninitialisedState) := by
  cases i with
  | init seed => exact .inl ⟨_, rfl, rfl⟩
  | nop =>
    left
    cases hr : s.regs with
    | uninitialised =>
      refine ⟨.uninitialised, ?_, ?_⟩
      · rw [exec, execNop, clearValid_of_uninitialised hr, ← hr]
      · rw [exec, execNop, clearValid_of_uninitialised (h ▸ hr), ← hr, h]
    | defined r v =>
      refine ⟨.defined r false, ?_, ?_⟩
      · rw [exec, execNop, clearValid_of_defined hr]; rfl
      · rw [exec, execNop, clearValid_of_defined (h ▸ hr)]; rfl
  | gen =>
    cases hr : s.regs with
    | uninitialised => exact .inr ⟨by simp [exec, execGen, hr], by simp [exec, execGen, ← h, hr]⟩
    | defined r v => exact .inl ⟨_, exec_gen_of_defined hr, exec_gen_of_defined (h ▸ hr)⟩

/-- All an edge that is accepted can do (spec/60_exceptions.md R91, items 2 and 6). -/
theorem acceptEdge_next_cases {p : Word} {e : Edge} {s t : State} (h : acceptEdge p e s = .next t) :
    (levelBit e.rst = some true ∧ t = applyReset p s) ∨
    (levelBit e.rst = some false ∧ ∃ i, decodePins e = .ok i ∧ exec i s = .next t) := by
  unfold acceptEdge at h
  cases hr : levelBit e.rst with
  | none => simp [hr] at h
  | some b =>
    cases b with
    | true => exact .inl ⟨rfl, by simpa [hr] using h.symm⟩
    | false =>
      cases hd : decodePins e with
      | error why => simp [hr, hd] at h
      | ok i => exact .inr ⟨rfl, i, rfl, by simpa [hr, hd] using h⟩

/-- An edge looks at the registers alone. -/
theorem acceptEdge_of_same_regs (p : Word) (e : Edge) {s s' : State} (h : s.regs = s'.regs) :
    (∃ rv, acceptEdge p e s = .next { s with regs := rv } ∧ acceptEdge p e s' = .next { s' with regs := rv }) ∨
    (∃ why, acceptEdge p e s = .fault why ∧ acceptEdge p e s' = .fault why) ∨
    (∃ why, acceptEdge p e s = .refused why ∧ acceptEdge p e s' = .refused why) := by
  unfold acceptEdge
  cases levelBit e.rst with
  | none => exact .inr (.inr ⟨_, rfl, rfl⟩)
  | some b =>
    cases b with
    | true => exact .inl ⟨_, rfl, rfl⟩
    | false =>
      cases decodePins e with
      | error why => exact .inr (.inr ⟨_, rfl, rfl⟩)
      | ok i =>
        rcases exec_of_same_regs i h with hn | ⟨h1, h2⟩
        · exact .inl hn
        · exact .inr (.inl ⟨_, h1, h2⟩)

/-- An accepted edge leaves the host's list and the position to the step. -/
theorem acceptEdge_next_input {p : Word} {e : Edge} {s t : State} (h : acceptEdge p e s = .next t) :
    t.input = s.input ∧ t.pos = s.pos := by
  rcases acceptEdge_next_cases h with ⟨-, rfl⟩ | ⟨-, i, -, hi⟩
  · simp
  · rcases exec_next_cases hi with ⟨-, rfl⟩ | ⟨-, r, v, -, rfl⟩ | ⟨seed, -, rfl⟩ <;> simp

end Sys2Proof.Machine
end

