-- ==== Sys2Proof/Laws/Generate.lean ====
section
/-! SUPPORT. The halves of `R`, the bits of the shift and rotate helpers, and the working values of `GEN`
(spec/20_memory.md R34, spec/00_scope.md R10, spec/41_generate.md R66 to R72). -/

namespace Sys2Proof.Machine

/-- Bit `i` of `{high, low}`. -/
theorem getLsbD_joinBytes (high low : Byte) (i : Nat) :
    (joinBytes high low).getLsbD i = if i < 8 then low.getLsbD i else high.getLsbD (i - 8) :=
  BitVec.getLsbD_append

theorem getLsbD_lowByte (r : Word) (i : Nat) : (lowByte r).getLsbD i = (decide (i < 8) && r.getLsbD i) := by
  rw [lowByte, BitVec.getLsbD_extractLsb', Nat.zero_add]

theorem getLsbD_highByte (r : Word) (i : Nat) :
    (highByte r).getLsbD i = (decide (i < 8) && r.getLsbD (8 + i)) := by
  rw [highByte, BitVec.getLsbD_extractLsb']

@[simp] theorem lowByte_joinBytes (high low : Byte) : lowByte (joinBytes high low) = low := by
  apply BitVec.eq_of_getLsbD_eq
  intro i hi
  rw [getLsbD_lowByte, getLsbD_joinBytes, if_pos hi, decide_eq_true hi, Bool.true_and]

@[simp] theorem highByte_joinBytes (high low : Byte) : highByte (joinBytes high low) = high := by
  apply BitVec.eq_of_getLsbD_eq
  intro i hi
  rw [getLsbD_highByte, getLsbD_joinBytes, if_neg (by omega), decide_eq_true hi, Bool.true_and,
    Nat.add_sub_cancel_left]

/-- The two halves are the whole register (spec/10_state.md R16). -/
@[simp] theorem joinBytes_halves (r : Word) : joinBytes (highByte r) (lowByte r) = r := by
  apply BitVec.eq_of_getLsbD_eq
  intro i hi
  rw [getLsbD_joinBytes, getLsbD_lowByte, getLsbD_highByte]
  split
  · rw [decide_eq_true ‹_›, Bool.true_and]
  · rw [decide_eq_true (by omega), Bool.true_and, Nat.add_sub_cancel' (by omega)]

/-- Bit `i` of `shl8 v`: bit 0 is 0, bit 7 of `v` is gone (R10). -/
theorem getLsbD_shl8 (v : Byte) (i : Nat) :
    (shl8 v).getLsbD i = (decide (i < 8) && !decide (i < 1) && v.getLsbD (i - 1)) :=
  BitVec.getLsbD_shiftLeft ..

/-- Bit `i` of `rolc8 v c`: the carry-in is bit 0 (R10). -/
theorem getLsbD_rolc8 (v : Byte) (c : Bool) (i : Nat) :
    (rolc8 v c).getLsbD i = if i < 1 then (BitVec.ofBool c).getLsbD i else (v.extractLsb' 0 7).getLsbD (i - 1) :=
  BitVec.getLsbD_append

/-- `rand_o` after a `GEN` is the byte `generate()` returns (spec/41_generate.md R72). -/
@[simp] theorem lowByte_generate (r : Word) : lowByte (generate r) = generatedByte r := by
  simp [generate, generatedByte]

/-- The working values after one iteration, in the old ones (spec/41_generate.md R67 to R69). -/
theorem iteration_a (w : Work) :
    (iteration w).a = if rolc8Out w.high then shl8 w.a ^^^ Config.tap else shl8 w.a := rfl
theorem iteration_high (w : Work) : (iteration w).high = rolc8 w.high (msb8 w.a) := rfl
theorem iteration_carry (w : Work) : (iteration w).carry = rolc8Out w.high := rfl

/-- The carry that a `GEN` starts with reaches no value (spec/10_state.md R28). -/
theorem iteration_carry_irrelevant (w : Work) (c : Bool) : iteration { w with carry := c } = iteration w := rfl

end Sys2Proof.Machine
end

