-- ==== Sys2Proof/Laws/PerInstr.lean ====
section
/-! SUPPORT. Per-command facts about the commands as terms: each one's word lies in its own row of the opcode map
(spec/30_encoding.md R47). -/

/-- The command's word matches its row's pattern under the mask `0x30000`. -/
def Sys2Proof.Laws.TableRow.Statement (i : Sys2Proof.Instr) : Prop :=
  i.wellFormed = true ∧
    Sys2Proof.encode i &&& 0x30000#18 =
      match i with
      | .nop => 0x00000#18
      | .gen => 0x10000#18
      | .init _ => 0x20000#18

theorem Sys2Proof.Laws.TableRow.nop : Sys2Proof.Laws.TableRow.Statement .nop := ⟨rfl, by decide⟩

theorem Sys2Proof.Laws.TableRow.gen : Sys2Proof.Laws.TableRow.Statement .gen := ⟨rfl, by decide⟩

theorem Sys2Proof.Laws.TableRow.init (seed : Sys2Proof.Word) :
    Sys2Proof.Laws.TableRow.Statement (.init seed) := by
  refine ⟨rfl, ?_⟩
  ext i hi
  simp only [Sys2Proof.encode, BitVec.getElem_and, BitVec.getElem_or, BitVec.getElem_setWidth]
  by_cases h : i < 16
  · interval_cases i <;> simp
  · rcases (by omega : i = 16 ∨ i = 17) with rfl | rfl <;> simp
end

