-- ==== Sys2Proof/Laws/Step.lean ====
section
/-! SUPPORT. One step and a run of steps, from the edge at the head of the host's list. -/

namespace Sys2Proof.Machine

/-- Where an edge is waiting, the step is that edge's. -/
theorem stepWith_cons {p : Word} {s : State} {e : Edge} {rest : List Edge} (h : s.input = e :: rest) :
    stepWith p s = acceptEdge p e (takeEdge rest s) := by simp [stepWith, h]

/-- Where none is waiting, nothing changes. -/
theorem stepWith_nil {p : Word} {s : State} (h : s.input = []) : stepWith p s = .next s := by
  simp [stepWith, h]

@[simp] theorem runSteps_zero (p : Word) (s : State) : runSteps p 0 s = .next s := rfl

theorem runSteps_succ (p : Word) (k : Nat) (s : State) :
    runSteps p (k + 1) s =
      match stepWith p s with
      | .next t => runSteps p k t
      | .fault why => .fault why
      | .refused why => .refused why := by
  have hstep : (coreWith p).step s = stepWith p s := rfl
  simp only [runSteps, Host.Core.run, hstep]
  cases stepWith p s <;> rfl

/-- `n + 1` `GEN`s from held registers: `R` is advanced `n + 1` times, `V` is 1. -/
theorem execTimes_gen {s : State} {r : Word} {v : Bool} (h : s.regs = .defined r v) (n : Nat) :
    execTimes .gen (n + 1) s = .next (writeRegs (generate^[n + 1] r) true s) := by
  induction n generalizing s r v with
  | zero => simp [execTimes, exec_gen_of_defined h]
  | succ n ih =>
    rw [execTimes, exec_gen_of_defined h]
    simp only
    rw [ih (writeRegs_regs _ _ _), Function.iterate_succ_apply]
    rfl

/-- A run that has no edge left has ended. -/
theorem runAll_nil {p : Word} {s : State} (h : s.input = []) : runAll p s = .next s := by simp [runAll, h]

/-- A run is its first edge and then the run of the rest. -/
theorem runAll_cons {p : Word} {s : State} {e : Edge} {rest : List Edge} (h : s.input = e :: rest) :
    runAll p s =
      match acceptEdge p e (takeEdge rest s) with
      | .next t => runAll p t
      | .fault why => .fault why
      | .refused why => .refused why := by
  rw [runAll, h, List.length_cons, runSteps_succ, stepWith_cons h]
  cases ha : acceptEdge p e (takeEdge rest s) with
  | fault why => rfl
  | refused why => rfl
  | next t =>
    have hrest : t.input = rest := (acceptEdge_next_input ha).1
    simp [runAll, hrest]

/-- The observation of the same edges depends on the registers alone. -/
theorem observe_of_same_regs (p : Word) (es : List Edge) {s s' : State} (h : s.regs = s'.regs) :
    observe p es s = observe p es s' := by
  induction es generalizing s s' with
  | nil => simp [observe, stateO, h]
  | cons e es ih =>
    simp only [observe]
    rcases acceptEdge_of_same_regs p e h with ⟨rv, h1, h2⟩ | ⟨why, h1, h2⟩ | ⟨why, h1, h2⟩
    · have hread : readOutputs { s with regs := rv } = readOutputs { s' with regs := rv } := by
        simp [readOutputs, randO, randValidO]
      rw [h1, h2]
      simp only [hread, ih (s := { s with regs := rv }) (s' := { s' with regs := rv }) rfl]
    · rw [h1, h2]
    · rw [h1, h2]

/-- The machine the host reads is the one at the open `RESET_SEED`. -/
theorem core_eq_coreWith : Sys2Proof.core = coreWith Config.resetSeed := rfl

end Sys2Proof.Machine
end

