-- ==== Sys2Proof/Tests/Slice0.lean ====
section
/-! SUPPORT. The model's own tests. Expected results are those of spec/95_test_vectors.md and of the examples in
the rules, none is the model's own answer. The `witness_` theorems show that the hypotheses of the statements in
Certificates/Slice0/Obligations.lean are met. -/

namespace Sys2Proof.Tests

open Sys2Proof Sys2Proof.Machine

/-! ## Helpers -/

/-- A state with the registers `(r, v)` and no edge waiting. -/
def held (r : Word) (v : Bool) : State := { regs := .defined r v, input := [], pos := 0 }

/-- A state whose next edge is `e`. -/
def before (e : Edge) (regs : Registers) : State := { regs := regs, input := [e], pos := 0 }

/-- An edge with `rst_i = 0` and the given pins. -/
def edgeOf (cmd : Bus 2) (seed : Bus 16) : Edge := { rst := .zero, cmd := cmd, seed := seed }

/-- The outcome is the next state `t`. -/
def isNext (o : Host.Outcome State Fault Refusal) (t : State) : Bool :=
  match o with
  | .next u => u == t
  | .fault _ => false
  | .refused _ => false

/-- The outcome is a next state with the registers `regs`. -/
def nextRegs (o : Host.Outcome State Fault Refusal) (regs : Registers) : Bool :=
  match o with
  | .next u => u.regs == regs
  | .fault _ => false
  | .refused _ => false

def isFault (o : Host.Outcome State Fault Refusal) (why : Fault) : Bool :=
  match o with
  | .next _ => false
  | .fault w => w == why
  | .refused _ => false

def isRefused (o : Host.Outcome State Fault Refusal) (why : Refusal) : Bool :=
  match o with
  | .next _ => false
  | .fault _ => false
  | .refused w => w == why

/-! ## Well-formedness: an ill-formed line for each check (R55, R56) -/

theorem test_wf_operand_too_large : (AsmLine.init 65536).wellFormed = false := by decide
theorem test_wf_operand_largest : (AsmLine.init 65535).wellFormed = true := by decide
theorem test_wf_gen_zero_times : (AsmLine.genTimes 0).wellFormed = false := by decide
theorem test_wf_nop_zero_times : (AsmLine.nopTimes 0).wellFormed = false := by decide
theorem test_wf_problem_named : (AsmLine.init 65536).problem = some .operandTooLarge := by decide

/-! ## Decoding: words written out from the format of R46 and the rows of R47 -/

theorem test_decode_nop : decode 0b00_0000000000000000#18 = .ok .nop := by decide
theorem test_decode_nop_imm : decode 0b00_0001001000110100#18 = .ok .nop := by decide
theorem test_decode_gen : decode 0b01_0000000000000000#18 = .ok .gen := by decide
theorem test_decode_gen_imm : decode 0b01_1111111111111111#18 = .ok .gen := by decide
theorem test_decode_init : decode 0b10_1011101010111110#18 = .ok (.init 0xBABE#16) := by decide
theorem test_decode_init_one : decode 0b10_0000000000000001#18 = .ok (.init 0x0001#16) := by decide
theorem test_decode_reserved : decode 0b11_0000000000000000#18 = .error .reservedCommand := by decide
theorem test_table_word : decodeTableWord 24 0x2BABE = some (.init 0xBABE#16) := by decide
theorem test_table_word_reserved : decodeTableWord 24 0x30000 = none := by decide
theorem test_pins_gen_unknown_seed : decodePins (edgeOf (busDrive 0b01#2) (busAll 16 .x)) = .ok .gen := by decide
theorem test_pins_init_unknown_seed :
    decodePins (edgeOf (busDrive 0b10#2) (busAll 16 .z)) = .error .unknownInput := by decide

/-! ## One command each (spec/95_test_vectors.md, sections 2.1 and 2.7) -/

theorem test_gen_babe : nextRegs (exec .gen (held 0xBABE#16 false)) (.defined 0xAEC2#16 true) = true := by decide
theorem test_gen_ace1 : nextRegs (exec .gen (held 0xACE1#16 true)) (.defined 0xF3FC#16 true) = true := by decide
theorem test_nop_keeps_byte :
    nextRegs (exec .nop (held 0xAEC2#16 true)) (.defined 0xAEC2#16 false) = true := by decide
theorem test_nop_uninitialised : isNext (exec .nop State.powerUp) State.powerUp = true := by decide
theorem test_init_babe :
    nextRegs (exec (.init 0xBABE#16) (held 0x1234#16 true)) (.defined 0xBABE#16 false) = true := by decide
theorem test_init_uninitialised :
    nextRegs (exec (.init 0x0000#16) State.powerUp) (.defined 0x0000#16 false) = true := by decide
theorem test_gen_uninitialised : isFault (exec .gen State.powerUp) .uninitialisedState = true := by decide

/-- The values at the end of iteration 1 from BABE (section 2.2): the same iteration's carry decides the feedback. -/
theorem test_first_iteration :
    iteration (startWork 0xBABE#16) = { a := 0x51#8, high := 0x75#8, carry := true } := by decide

/-- Section 2.5 and two entries of the table of section 2.4. -/
theorem test_galois_step : galoisStep 0xFFFF#16 = 0xFFD3#16 := by decide
theorem test_clmul_ae : clmul 0xAE#8 0x2D#8 = 0x12A6#16 := by decide
theorem test_clmul_ff : clmul 0xFF#8 0x2D#8 = 0x1B1B#16 := by decide

/-! ## One edge each (section 2.8) -/

theorem test_reset_over_unknown_command :
    nextRegs (stepWith 0xACE1#16 (before { rst := .one, cmd := busAll 2 .x, seed := busAll 16 .x } .uninitialised))
      (.defined 0xACE1#16 false) = true := by decide
theorem test_reserved_refused :
    isRefused (stepWith 0#16 (before (commandEdge 0x30000#18) (.defined 0x0100#16 true))) .reservedCommand = true := by
  decide
theorem test_unknown_reset_refused :
    isRefused (stepWith 0#16 (before { resetEdge with rst := .x } (.defined 0#16 true))) .unknownInput = true := by
  decide
theorem test_gen_ignores_unknown_seed :
    nextRegs (stepWith 0#16 (before (edgeOf (busDrive 0b01#2) (busAll 16 .x)) (.defined 0xBABE#16 false)))
      (.defined 0xAEC2#16 true) = true := by decide
theorem test_offered_word_runs_first_after_reset :
    isNext (step (State.reset.withFetchWord 24 0x2BABE))
      { regs := .defined 0xBABE#16 false, input := [], pos := 1 } = true := by decide

/-! ## Assembler (R55 to R57, program P1 of section 3) -/

theorem test_parse_init :
    parseLine ['i', 'n', 'i', 't', ' ', '0', 'x', 'b', 'a', 'B', 'E', ' ', ';', 'x'] = .ok (some (.init 0xBABE)) := by
  decide
theorem test_parse_gen_times : parseLine ['G', 'E', 'N', '*', '3'] = .ok (some (.genTimes 3)) := by decide
theorem test_parse_five_hex_digits :
    parseLine ['I', 'N', 'I', 'T', ' ', '0', 'x', '0', '0', '0', '0', '1'] = .error .badLiteral := by decide
theorem test_assemble_init : assembleLine (.init 0xBABE) = .ok [commandEdge 0x2BABE#18] := by decide
theorem test_parse_reserved_rejected :
    parseLine ['.', 'r', 'e', 's', 'e', 'r', 'v', 'e', 'd', ' ', '0', 'x', '3', '0', '0', '0', '0'] =
      .error .unknownLine := by decide
theorem test_assemble_text :
    assembleText [['R', 'E', 'S', 'E', 'T'], ['I', 'N', 'I', 'T', ' ', '0', 'x', 'B', 'A', 'B', 'E'], [';'],
        ['g', 'e', 'n', '*', '2'], ['N', 'O', 'P']] =
      .ok [resetEdge, commandEdge 0x2BABE#18, commandEdge 0x10000#18, commandEdge 0x10000#18, commandEdge 0x00000#18] := by
  decide
theorem test_disassemble_reserved :
    listingText (disassemble 0x30000#18) =
      ['.', 'r', 'e', 's', 'e', 'r', 'v', 'e', 'd', ' ', '0', 'x', '3', '0', '0', '0', '0'] := by decide

/-! ## Observation (first two edges of program P5; program P7) -/

theorem test_observe_p5 :
    observe 0#16 [commandEdge 0x20100#18, commandEdge 0x10000#18] State.powerUp =
      { outputs := [(0x00#8, false), (0x2D#8, true)], finalState := some 0x002D#16, mark := none } := by decide
theorem test_observe_read_at_power_up :
    (observe 0#16 [commandEdge 0x00000#18] State.powerUp).mark = some (.fault .uninitialisedState) := by decide

/-! ## Witnesses: the hypotheses of each statement are met -/

theorem witness_NopKeepsRAndClearsValid :
    0x01234#18 &&& 0x30000#18 = 0x00000#18 ∧ (held 0xAEC2#16 true).regs = .defined 0xAEC2#16 true ∧
    State.powerUp.regs = .uninitialised ∧
    isNext (exec .nop (held 0xAEC2#16 true)) (held 0xAEC2#16 false) = true := by decide

theorem witness_InitStoresTheSeedExactly :
    0x2BABE#18 &&& 0x30000#18 = 0x20000#18 ∧
    isNext (exec (.init 0xBABE#16) State.powerUp) (held 0xBABE#16 false) = true := by decide

theorem witness_GenRunsTheEightIterations :
    ∃ (s : State) (r : Word) (v : Bool) (a high : Nat → Byte) (shiftCarry rotateCarry : Nat → Bool),
      s.regs = .defined r v ∧ a 0 = r.extractLsb' 0 8 ∧ high 0 = r.extractLsb' 8 8 ∧
      (∀ k < 8, shiftCarry (k + 1) = (a k).getLsbD 7) ∧
      (∀ k < 8, high (k + 1) = (high k).extractLsb' 0 7 ++ BitVec.ofBool (shiftCarry (k + 1))) ∧
      (∀ k < 8, rotateCarry (k + 1) = (high k).getLsbD 7) ∧
      (∀ k < 8, a (k + 1) = if rotateCarry (k + 1) then (a k <<< 1) ^^^ 0x2D#8 else a k <<< 1) :=
  ⟨held 0xBABE#16 false, 0xBABE#16, false, fun k => (stageAfter 0xBABE#16 k).a, fun k => (stageAfter 0xBABE#16 k).h,
    fun k => stageShiftCarry (stageAfter 0xBABE#16 (k - 1)), fun k => stageRotateCarry (stageAfter 0xBABE#16 (k - 1)),
    by decide⟩

theorem witness_GenEncodingFaultAndCornerCases :
    0x1FFFF#18 &&& 0x30000#18 = 0x10000#18 ∧ State.powerUp.regs = .uninitialised ∧
    (held 0x0000#16 false).regs = .defined 0x0000#16 false ∧ (held 0xFFFF#16 true).regs = .defined 0xFFFF#16 true := by
  decide

/-- Also for the other statements about one `GEN` from held registers, and for those about a nonzero `R`. -/
theorem witness_GenIsTheEightStageChain :
    (held 0xFFFF#16 false).regs = .defined 0xFFFF#16 false ∧ 0xFFFF#16 ≠ 0#16 ∧ 0 < 8 ∧ 7 < 8 := by decide

theorem witness_GenIsEightGaloisSteps : ∃ (s : State) (r : Word) (v : Bool), s.regs = .defined r v :=
  ⟨held 0x8000#16 true, 0x8000#16, true, rfl⟩

theorem witness_GenHasTheCarrylessProductForm :
    (held 0x00FF#16 true).regs = .defined 0x00FF#16 true ∧ 1 ≤ 1 ∧ 1 ≤ 8 ∧ 8 ≤ 8 := by decide

theorem witness_ZeroIsAFixedPointOfGen : ∃ (s : State) (v : Bool), s.regs = .defined 0x0000#16 v :=
  ⟨held 0x0000#16 true, true, rfl⟩

theorem witness_GaloisStepHasMaximalPeriod :
    (held 0x0001#16 false).regs = .defined 0x0001#16 false ∧ 0x0001#16 ≠ 0#16 ∧ 0 < 65534 ∧ 65534 < 65535 ∧
    isNext (exec .gen (held 0x0001#16 false)) (held 0x0100#16 true) = true := by decide

theorem witness_NonzeroStatesFormOneCycle :
    (held 0x0001#16 false).regs = .defined 0x0001#16 false ∧ 0x0001#16 ≠ 0#16 ∧ 0 < 1 ∧ 1 < 65535 ∧
    isNext (execTimes .gen 1 (held 0x0001#16 false)) (held 0x0100#16 true) = true := by decide

theorem witness_OutputStreamHasTheFullPeriod :
    ∃ (s : State) (r : Word) (v : Bool) (b : Nat → Byte), s.regs = .defined r v ∧ r ≠ 0#16 ∧
      ∀ n, ∃ t, execTimes .gen (n + 1) s = .next t ∧ randO t = .ok (b n) :=
  ⟨held 0xBABE#16 false, 0xBABE#16, false, fun n => lowByte (generate^[n + 1] 0xBABE#16), rfl, by decide,
    fun n => ⟨_, execTimes_gen rfl n, rfl⟩⟩

theorem witness_TwoOutputsDetermineTheState :
    ∃ (s t u : State) (r : Word) (v : Bool) (o o' : Byte), s.regs = .defined r v ∧
      exec .gen s = .next t ∧ randO t = .ok o ∧ exec .gen t = .next u ∧ randO u = .ok o' :=
  ⟨held 0xBABE#16 false, _, _, 0xBABE#16, false, _, _, rfl, rfl, rfl, rfl, rfl⟩

theorem witness_EveryCommandCompletes : Initialised (held 0x0000#16 false) := rfl

theorem witness_CommandsLeaveTheRestUnchanged :
    isNext (exec .nop (held 0x1234#16 true)) (held 0x1234#16 false) = true ∧
    isNext (exec .gen (held 0x1234#16 false)) (held 0x368A#16 true) = true ∧
    isNext (exec (.init 0x1234#16) State.powerUp) (held 0x1234#16 false) = true := by decide

theorem witness_IdempotencyOfTheCommands :
    (held 0x0001#16 true).regs = .defined 0x0001#16 true ∧ 0x0001#16 ≠ 0#16 ∧
    isNext (exec .gen (held 0x0001#16 true)) (held 0x0100#16 true) = true := by decide

theorem witness_OnlyResetInitAndGenWriteR :
    ∃ (p : Word) (s t : State), stepWith p s = .next t ∧ stateO t ≠ stateO s :=
  ⟨0x1234#16, before resetEdge (.defined 0xBABE#16 true), _, rfl, by decide⟩

theorem witness_OnlyResetInitAndGenWriteR_reserved :
    (before (commandEdge 0x30000#18) .uninitialised).input = commandEdge 0x30000#18 :: [] ∧
    levelBit (commandEdge 0x30000#18).rst = some false ∧ busValue (commandEdge 0x30000#18).cmd = some 0b11#2 := by
  decide

theorem witness_ValidFlagSaysTheLastEdgeWasGen :
    ∃ (p : Word) (s t : State) (e : Edge) (rest : List Edge), s.input = e :: rest ∧ stepWith p s = .next t ∧
      Initialised t ∧ randValidO t = .ok true :=
  ⟨0#16, before (commandEdge 0x10000#18) (.defined 0xBABE#16 false), _, _, _, rfl, rfl, rfl, rfl⟩

theorem witness_PinsMapToBitsWithoutSwap :
    levelBit (commandEdge 0x28001#18).rst = some false ∧ busValue (commandEdge 0x28001#18).cmd = some 0b10#2 ∧
    busValue (commandEdge 0x28001#18).seed = some 0x8001#16 ∧
    (before (commandEdge 0x28001#18) .uninitialised).input = commandEdge 0x28001#18 :: [] ∧
    (held 0x8001#16 true).regs = .defined 0x8001#16 true := by decide

theorem witness_UninitialisedUntilResetOrInit :
    State.powerUp.regs = .uninitialised ∧ isDefined (held 0#16 true).regs = true ∧
    isNext (stepWith 0#16 (held 0#16 true)) (held 0#16 true) = true := by decide

theorem witness_ResetEdgeLoadsTheResetSeed :
    (before { rst := .one, cmd := busDrive 0b11#2, seed := busAll 16 .z } .uninitialised).input =
      { rst := .one, cmd := busDrive 0b11#2, seed := busAll 16 .z } :: [] := rfl

theorem witness_HeldResetIsOneReset :
    (commandEdge 0x10000#18).rst = .zero ∧ decodePins (commandEdge 0x10000#18) = .ok .gen := by decide

theorem witness_OutputsStraightAfterReset :
    ∃ (p : Word) (s t : State), (s = applyReset p t ∨ s = State.resetWith p) :=
  ⟨0x0000#16, _, State.powerUp, .inl rfl⟩

/-- One edge for each clause of the order of R91: unknown `rst_i`; reset; unknown `cmd_i`; `INIT` with one unknown
wire of `seed_i`; reserved; `GEN`; `NOP`; `INIT`. -/
theorem witness_EdgeOutcomesInOrder :
    levelBit Level.z = none ∧ levelBit resetEdge.rst = some true ∧
    levelBit (edgeOf (busAll 2 .x) (busDrive 0#16)).rst = some false ∧ busValue (busAll 2 .x) = none ∧
    busValue (n := 2) ⟨[.zero, .x], rfl⟩ = none ∧
    busValue (busDrive 0b10#2) = some 0b10#2 ∧
    busValue (n := 16) ⟨.x :: List.replicate 15 .zero, rfl⟩ = none ∧
    busValue (busDrive 0b11#2) = some 0b11#2 ∧ busValue (busDrive 0b01#2) = some 0b01#2 ∧
    busValue (busDrive 0b00#2) = some 0b00#2 ∧ busValue (busDrive 0xFFFF#16) = some 0xFFFF#16 ∧
    State.powerUp.regs = .uninitialised ∧ (held 0#16 true).regs = .defined 0#16 true ∧
    (before resetEdge .uninitialised).input = resetEdge :: [] := by decide

theorem witness_UnknownInputsAreRefused :
    (before resetEdge .uninitialised).input = resetEdge :: [] ∧
    busValue (edgeOf (busDrive 0b01#2) (busAll 16 .x)).cmd ≠ some 0b10#2 := by decide

theorem witness_BusIsKnownExactlyWhenEveryWireIs :
    busValue (n := 2) ⟨[.one, .z], rfl⟩ = none ∧ busValue (n := 2) ⟨[.one, .zero], rfl⟩ = some 0b01#2 := by decide

/-- A run that faults at its second step, and one that is refused at its first: what the kept mark is said of. -/
theorem witness_StopsAreExactlyTheThreeOutcomes :
    isFault (runSteps 0#16 2 { State.powerUp with input := [commandEdge 0x00000#18, commandEdge 0x10000#18] })
      .uninitialisedState = true ∧
    isRefused (runSteps 0#16 1 { State.powerUp with input := [commandEdge 0x30000#18] }) .reservedCommand = true := by
  decide

theorem witness_StepRunsTheDecodedCommand :
    (before (commandEdge 0x2FFFF#18) .uninitialised).input = commandEdge 0x2FFFF#18 :: [] ∧
    levelBit (commandEdge 0x2FFFF#18).rst = some false ∧
    decodePins (commandEdge 0x2FFFF#18) = .ok (.init 0xFFFF#16) ∧ (Instr.init 0xFFFF#16).wellFormed = true := by decide

theorem witness_OfferedWordIsRunNext : decodeTableWord 18 0x1ABCD = some .gen := by decide

theorem witness_PositionCountsTheAcceptedEdges :
    ∃ (p : Word) (s t : State) (e : Edge) (rest : List Edge), s.input = e :: rest ∧ stepWith p s = .next t :=
  ⟨0#16, before resetEdge .uninitialised, _, _, _, rfl, rfl⟩

theorem witness_PositionCountsTheAcceptedEdges_end : State.reset.input = [] := rfl

theorem witness_StepKeepsRegistersDefinedAndPositionExact :
    ∃ (p : Word) (n : Nat) (s t : State), (Initialised s ∧ s.pos + s.input.length = n) ∧ stepWith p s = .next t :=
  ⟨0#16, 1, before (commandEdge 0x10000#18) (.defined 0xBABE#16 false), _, ⟨rfl, rfl⟩, rfl⟩

theorem witness_StepKeepsTheStateNonDegenerate :
    ∃ (p : Word) (s t : State), NonDegenerate p s ∧ stepWith p s = .next t :=
  ⟨0#16, before (commandEdge 0x20001#18) (.defined 0xBABE#16 true), _,
    ⟨⟨0xBABE#16, true, rfl, by decide⟩, by simp only [before, List.mem_singleton]; rintro e rfl; decide⟩, rfl⟩

theorem witness_InvariantsHoldAtReset : 0x0001#16 ≠ 0#16 := by decide

theorem witness_DecodeAndEncodeAgree :
    (Instr.init 0xFFFF#16).wellFormed = true ∧ decode 0x1FFFF#18 = .ok .gen := by decide

theorem witness_CanonicalWordsAndDisassembly :
    65535 ≤ 65535 ∧ 0x0FFFF#18 &&& 0x30000#18 = 0x00000#18 ∧ 0x1FFFF#18 &&& 0x30000#18 = 0x10000#18 ∧
    0x3FFFF#18 &&& 0x30000#18 = 0x30000#18 := by decide

theorem witness_PseudoInstructionsExpand :
    1 ≤ 1 ∧ isDefined (held 0#16 false).regs = true ∧
    assembleLine (.genTimes 1) = .ok [commandEdge 0x10000#18] ∧
    assembleLine (.nopTimes 1) = .ok [commandEdge 0x00000#18] := by decide

theorem witness_AssemblerChecksTheSeedRange : 65535 < 65536 ∧ 65535 ≤ 65535 := by decide

theorem witness_RunsComposeInOrder :
    isNext (runAll 0#16 (withEdges [commandEdge 0x10000#18] (held 0xBABE#16 false)))
      { held 0xAEC2#16 true with pos := 1 } = true ∧
    isFault (runAll 0#16 (withEdges [commandEdge 0x10000#18] State.powerUp)) .uninitialisedState = true ∧
    isRefused (runAll 0#16 (withEdges [commandEdge 0x30000#18] State.powerUp)) .reservedCommand = true := by decide

theorem witness_ConsecutiveCommandsSeeEachOther :
    (held 0x1234#16 true).regs = .defined 0x1234#16 true ∧
    isNext (exec .gen (held 0x1234#16 true)) (held 0x368A#16 true) = true ∧
    isNext (exec .nop (held 0x368A#16 true)) (held 0x368A#16 false) = true := by decide

theorem witness_ObservationAgreesWithTheRun :
    isDefined (held 0xBABE#16 false).regs = true ∧
    isNext (runAll 0#16 (before (commandEdge 0x10000#18) (.defined 0xBABE#16 false)))
      { held 0xAEC2#16 true with pos := 1 } = true ∧
    isRefused (runAll 0#16 (before (commandEdge 0x30000#18) (.defined 0xBABE#16 false))) .reservedCommand = true ∧
    isFault (runAll 0#16 (before (commandEdge 0x10000#18) .uninitialised)) .uninitialisedState = true ∧
    0 < (before (commandEdge 0x10000#18) (.defined 0xBABE#16 false)).input.length ∧
    isNext (runSteps 0#16 (0 + 1) (before (commandEdge 0x10000#18) (.defined 0xBABE#16 false)))
      { held 0xAEC2#16 true with pos := 1 } = true := by decide

end Sys2Proof.Tests
end

section
/-! One iteration of `GEN` is one Galois step of the 16-bit register, so a `GEN` is eight of them
(spec/41_generate.md R75), and it is linear over XOR because the Galois step is. -/

namespace Sys2Proof.Machine

/-- Steps 3a and 3b together shift the whole register left by one bit (R67, R68). -/
theorem joinBytes_rolc8_shl8 (high low : Byte) :
    joinBytes (rolc8 high (msb8 low)) (shl8 low) = joinBytes high low <<< 1 := by
  apply BitVec.eq_of_getLsbD_eq
  intro i hi
  rw [getLsbD_joinBytes, getLsbD_shl8, getLsbD_rolc8, BitVec.getLsbD_shiftLeft, getLsbD_joinBytes]
  rcases lt_trichotomy i 8 with hlow | rfl | hhigh
  · simp [hlow, hi, show i - 1 < 8 by omega]
  · simp [msb8]
  · simp [show ¬ i < 8 by omega, show ¬ i - 8 < 1 by omega, show ¬ i - 1 < 8 by omega, hi,
      show i - 1 - 8 < 7 by omega, show ¬ i < 1 by omega, show i - 8 - 1 = i - 1 - 8 by omega]

/-- Step 3c's tap mask, seen on the whole register (R69). -/
theorem joinBytes_xor_tap (high low : Byte) :
    joinBytes high (low ^^^ Config.tap) = joinBytes high low ^^^ 0x002D#16 := by
  have htap : (0x002D#16 : Word) = 0x00#8 ++ Config.tap := rfl
  rw [joinBytes, joinBytes, htap, BitVec.xor_append, BitVec.xor_zero]

/-- The carry-out of the rotate is the register's top bit. -/
theorem rolc8Out_eq_getLsbD_joinBytes (high low : Byte) :
    rolc8Out high = (joinBytes high low).getLsbD 15 := by
  rw [getLsbD_joinBytes, if_neg (by decide), rolc8Out]

/-- One iteration of step 3 is one Galois step (R75). -/
theorem joinBytes_iteration (w : Work) :
    joinBytes (iteration w).high (iteration w).a = galoisStep (joinBytes w.high w.a) := by
  rw [iteration_high, iteration_a, galoisStep, ← rolc8Out_eq_getLsbD_joinBytes, ← joinBytes_rolc8_shl8]
  cases rolc8Out w.high
  · simp
  · simp [joinBytes_xor_tap]

theorem joinBytes_iterations (n : Nat) (w : Work) :
    joinBytes (iterations n w).high (iterations n w).a = galoisSteps n (joinBytes w.high w.a) := by
  induction n generalizing w with
  | zero => rfl
  | succ n ih => rw [iterations, galoisSteps, ih, joinBytes_iteration]

/-- A `GEN` is eight Galois steps (R75). -/
theorem generate_eq_galoisSteps (r : Word) : generate r = galoisSteps 8 r := by
  have hstart : joinBytes (startWork r).high (startWork r).a = r := joinBytes_halves r
  rw [generate, finalWork, joinBytes_iterations, hstart, Config.iterations]

theorem generate_xor (r r' : Word) : generate (r ^^^ r') = generate r ^^^ generate r' := by
  simp only [generate_eq_galoisSteps, galoisSteps_xor]

/-- Settles O8: a `GEN` is eight Galois steps, each of which is linear over XOR. -/
theorem genIsLinearOverXor : Obligations.GenIsLinearOverXor := by
  intro s v r r'
  rw [← generate_xor]
  exact exec_gen_of_defined rfl

end Sys2Proof.Machine
end

section
/-! The bus as the number on its wires: unknown exactly when one wire is (spec/60_exceptions.md R90), and known only
as the bus driven with its value (spec/10_state.md R23). -/

namespace Sys2Proof.Machine

theorem levelBit_eq_none (l : Level) : levelBit l = none ↔ l = .x ∨ l = .z := by
  cases l <;> simp [levelBit]

/-- A wire that carries a known bit is driven with it. -/
theorem eq_levelOf_of_levelBit {l : Level} {b : Bool} (h : levelBit l = some b) : l = levelOf b := by
  cases l <;> cases h <;> rfl

/-- Wires that carry a number are driven with it. -/
theorem eq_levelsOf_of_levelsValue {ls : List Level} {v : Nat} (h : levelsValue ls = some v) :
    ls = levelsOf ls.length v := by
  induction ls generalizing v with
  | nil => rfl
  | cons l ls ih =>
    cases hl : levelBit l with
    | none => simp [levelsValue, hl] at h
    | some b =>
      cases hu : levelsValue ls with
      | none => simp [levelsValue, hl, hu] at h
      | some u =>
        obtain rfl : b.toNat + 2 * u = v := by simpa [levelsValue, hl, hu] using h
        have hbit : (b.toNat + 2 * u).testBit 0 = b := by cases b <;> simp [Nat.testBit_zero]
        have hhalf : (b.toNat + 2 * u) / 2 = u := by have := b.toNat_le; omega
        rw [List.length_cons, levelsOf, hbit, hhalf, ← ih hu, ← eq_levelOf_of_levelBit hl]

theorem busValue_eq_none {n : Nat} (b : Bus n) : busValue b = none ↔ ∃ l ∈ b.wires, l = .x ∨ l = .z := by
  simp only [busValue, Option.map_eq_none_iff, levelsValue_eq_none, levelBit_eq_none]

/-- Driving is the only way to a known value: the wires fix the bus, and the width bounds the number. -/
theorem eq_busDrive_of_busValue {n : Nat} {b : Bus n} {v : BitVec n} (h : busValue b = some v) :
    b = busDrive v := by
  obtain ⟨wires, rfl⟩ := b
  obtain ⟨u, hu, rfl⟩ : ∃ u, levelsValue wires = some u ∧ BitVec.ofNat _ u = v := by
    simpa [busValue] using h
  have hwires := eq_levelsOf_of_levelsValue hu
  have hbound : u % 2 ^ wires.length = u := by
    rw [hwires, levelsValue_levelsOf] at hu
    simpa using hu
  simpa [busDrive, hbound] using hwires

/-- Settles O27: wire by wire for the unknown bus; a known bus is driven with the number its wires carry. -/
theorem busIsKnownExactlyWhenEveryWireIs : Obligations.BusIsKnownExactlyWhenEveryWireIs := by
  refine ⟨fun n b => busValue_eq_none b, fun n v b => ⟨eq_busDrive_of_busValue, ?_⟩⟩
  rintro rfl
  exact busValue_busDrive v

end Sys2Proof.Machine
end

section
/-! What a command, an edge and a step do to the registers, the list and the position, in the levels on the pins
(spec/10_state.md R18, R29, R30, spec/60_exceptions.md R91). -/

namespace Sys2Proof.Machine

theorem initialised_iff (s : State) : Initialised s ↔ ∃ r v, s.regs = .defined r v := by
  cases h : s.regs <;> simp [Initialised, isDefined, h]

@[simp] theorem stateO_clearValid (s : State) : stateO (clearValid s) = stateO s := by
  cases h : s.regs with
  | uninitialised => rw [clearValid_of_uninitialised h]
  | defined r v => simp [clearValid_of_defined h, stateO, h]

@[simp] theorem randO_clearValid (s : State) : randO (clearValid s) = randO s := by
  cases h : s.regs with
  | uninitialised => rw [clearValid_of_uninitialised h]
  | defined r v => simp [clearValid_of_defined h, randO, h]

@[simp] theorem isDefined_clearValid (s : State) : isDefined (clearValid s).regs = isDefined s.regs := by
  cases h : s.regs with
  | uninitialised => rw [clearValid_of_uninitialised h, h]
  | defined r v => simp [clearValid_of_defined h, isDefined]

/-- `NOP` leaves `V = 0` wherever a value is held (R59). -/
theorem randValidO_clearValid {s : State} (h : Initialised (clearValid s)) :
    randValidO (clearValid s) = .ok false := by
  obtain ⟨r, v, hr⟩ := (initialised_iff s).1 ((isDefined_clearValid s).symm.trans h)
  simp [clearValid_of_defined hr, randValidO]

theorem exec_next_input {i : Instr} {s t : State} (h : exec i s = .next t) :
    t.input = s.input ∧ t.pos = s.pos := by
  rcases exec_next_cases h with ⟨-, rfl⟩ | ⟨-, r, v, -, rfl⟩ | ⟨seed, -, rfl⟩ <;> simp

theorem exec_gen_of_uninitialised {s : State} (h : s.regs = .uninitialised) :
    exec .gen s = .fault .uninitialisedState := by simp [exec, execGen, h]

/-- The pins a decoded command was on: the rows of R47, `seed_i` known for `INIT`. -/
theorem decodePins_ok_cases {e : Edge} {i : Instr} (h : decodePins e = .ok i) :
    (busValue e.cmd = some 0b00#2 ∧ i = .nop) ∨
    (busValue e.cmd = some 0b01#2 ∧ i = .gen) ∨
    (busValue e.cmd = some 0b10#2 ∧ ∃ seed, busValue e.seed = some seed ∧ i = .init seed) := by
  unfold decodePins at h
  cases hc : busValue e.cmd with
  | none => simp [hc] at h
  | some cmd =>
    rcases op_cases cmd with rfl | rfl | rfl | rfl
    · exact .inl ⟨rfl, by simpa [hc] using h.symm⟩
    · exact .inr (.inl ⟨rfl, by simpa [hc] using h.symm⟩)
    · cases hseed : busValue e.seed with
      | none => simp [hc, hseed] at h
      | some seed => exact .inr (.inr ⟨rfl, seed, rfl, by simpa [hc, hseed] using h.symm⟩)
    · simp [hc] at h

/-- All an accepted edge can do, by its pins. -/
theorem acceptEdge_next_pins {p : Word} {e : Edge} {s t : State} (h : acceptEdge p e s = .next t) :
    (levelBit e.rst = some true ∧ t = applyReset p s) ∨
    (levelBit e.rst = some false ∧ busValue e.cmd = some 0b00#2 ∧ t = clearValid s) ∨
    (levelBit e.rst = some false ∧ busValue e.cmd = some 0b01#2 ∧
      ∃ r v, s.regs = .defined r v ∧ t = writeRegs (generate r) true s) ∨
    (levelBit e.rst = some false ∧ busValue e.cmd = some 0b10#2 ∧
      ∃ seed, busValue e.seed = some seed ∧ t = writeRegs seed false s) := by
  rcases acceptEdge_next_cases h with hreset | ⟨hrst, i, hd, hi⟩
  · exact .inl hreset
  · rcases decodePins_ok_cases hd with ⟨hc, rfl⟩ | ⟨hc, rfl⟩ | ⟨hc, seed, hseed, rfl⟩
    · exact .inr (.inl ⟨hrst, hc, by simpa using exec_next_cases hi⟩)
    · exact .inr (.inr (.inl ⟨hrst, hc, by simpa using exec_next_cases hi⟩))
    · exact .inr (.inr (.inr ⟨hrst, hc, seed, hseed, by simpa using exec_next_cases hi⟩))

theorem acceptEdge_of_reserved {p : Word} {e : Edge} {s : State} (hrst : levelBit e.rst = some false)
    (hcmd : busValue e.cmd = some 0b11#2) : acceptEdge p e s = .refused .reservedCommand := by
  simp [acceptEdge, hrst, decodePins, hcmd, refusalOf]

theorem acceptEdge_of_decodePins {p : Word} {e : Edge} {i : Instr} {s : State}
    (hrst : levelBit e.rst = some false) (hd : decodePins e = .ok i) : acceptEdge p e s = exec i s := by
  simp [acceptEdge, hrst, hd]

/-- `V` after an accepted edge says whether the edge was a `GEN` (R21). -/
theorem randValidO_after_edge {p : Word} {e : Edge} {s t : State} (h : acceptEdge p e s = .next t)
    (ht : Initialised t) :
    randValidO t = .ok (decide (levelBit e.rst = some false ∧ busValue e.cmd = some 0b01#2)) := by
  rcases acceptEdge_next_pins h with ⟨hrst, rfl⟩ | ⟨hrst, hc, rfl⟩ | ⟨hrst, hc, r, v, -, rfl⟩ |
    ⟨hrst, hc, seed, -, rfl⟩
  · simp [randValidO, hrst]
  · simp [randValidO_clearValid ht, hc]
  · simp [randValidO, hrst, hc]
  · simp [randValidO, hc]

/-- All a step that answers a next state can do: the edge at the head of the list, or nothing. -/
theorem stepWith_next_cases {p : Word} {s t : State} (h : stepWith p s = .next t) :
    (s.input = [] ∧ t = s) ∨
    ∃ e rest, s.input = e :: rest ∧ acceptEdge p e (takeEdge rest s) = .next t := by
  cases hs : s.input with
  | nil => exact .inl ⟨rfl, by simpa [stepWith_nil hs] using h.symm⟩
  | cons e rest => exact .inr ⟨e, rest, rfl, stepWith_cons hs ▸ h⟩

/-- An accepted edge leaves the position one further and the rest of the list (R30). -/
theorem acceptEdge_takeEdge_next {p : Word} {e : Edge} {rest : List Edge} {s t : State}
    (h : acceptEdge p e (takeEdge rest s) = .next t) : t.pos = s.pos + 1 ∧ t.input = rest := by
  obtain ⟨hinput, hpos⟩ := acceptEdge_next_input h
  exact ⟨hpos, hinput⟩

/-- Whether the registers hold a value after an accepted edge is what `heldAfter` says (R29). -/
theorem isDefined_after_edge {p : Word} {e : Edge} {s t : State} (h : acceptEdge p e s = .next t) :
    isDefined t.regs = heldAfter e (isDefined s.regs) := by
  rcases acceptEdge_next_cases h with ⟨hrst, rfl⟩ | ⟨hrst, i, hd, hi⟩
  · simp [heldAfter, hrst, isDefined]
  · rcases exec_next_cases hi with ⟨rfl, rfl⟩ | ⟨rfl, r, v, hr, rfl⟩ | ⟨seed, rfl, rfl⟩
    · simp [heldAfter, hrst, hd]
    · simp [heldAfter, hrst, hd, hr, isDefined]
    · simp [heldAfter, hrst, hd, isDefined]

/-- No edge takes a held value away (R29). -/
@[simp] theorem heldAfter_true (e : Edge) : heldAfter e true = true := by
  unfold heldAfter
  split
  · rfl
  · rfl
  · split <;> rfl

theorem acceptEdge_keeps_initialised {p : Word} {e : Edge} {s t : State} (hs : Initialised s)
    (h : acceptEdge p e s = .next t) : Initialised t := by
  have hheld : isDefined s.regs = true := hs
  rw [Initialised, isDefined_after_edge h, hheld, heldAfter_true]

theorem stepWith_keeps_initialised {p : Word} {s t : State} (hs : Initialised s)
    (h : stepWith p s = .next t) : Initialised t := by
  rcases stepWith_next_cases h with ⟨-, rfl⟩ | ⟨e, rest, -, he⟩
  · exact hs
  · exact acceptEdge_keeps_initialised (s := takeEdge rest s) hs he

/-- What the position gains at a step, the list loses (R30). -/
theorem stepWith_keeps_pos_add_length {p : Word} {s t : State} (h : stepWith p s = .next t) :
    t.pos + t.input.length = s.pos + s.input.length := by
  rcases stepWith_next_cases h with ⟨-, rfl⟩ | ⟨e, rest, hs, he⟩
  · rfl
  · obtain ⟨hpos, hinput⟩ := acceptEdge_takeEdge_next he
    rw [hpos, hinput, hs, List.length_cons]
    omega

/-- A `GEN` sets `V`, so an edge that leaves `V = 1` left the generated byte on `rand_o`. -/
theorem randO_of_valid_after_edge {p : Word} {e : Edge} {s t : State} (h : acceptEdge p e s = .next t)
    (ht : Initialised t) (hv : randValidO t = .ok true) :
    ∃ r v, s.regs = .defined r v ∧ randO t = .ok (generatedByte r) := by
  rcases acceptEdge_next_pins h with ⟨-, rfl⟩ | ⟨-, -, rfl⟩ | ⟨-, -, r, v, hr, rfl⟩ | ⟨-, -, seed, -, rfl⟩
  · simp [randValidO] at hv
  · simp [randValidO_clearValid ht] at hv
  · exact ⟨r, v, hr, by simp [randO]⟩
  · simp [randValidO] at hv

/-- No command reads `V` (R21). -/
theorem exec_valid_irrelevant (i : Instr) (s : State) (r : Word) (v v' : Bool) :
    exec i { s with regs := .defined r v } = exec i { s with regs := .defined r v' } := by
  cases i with
  | nop => simp only [exec, execNop, clearValid, writeRegs]
  | gen => simp only [exec, execGen, writeRegs]
  | init seed => simp only [exec, execInit, writeRegs]

end Sys2Proof.Machine
end

section
/-! The statements about the registers, the ports and one step, each from what one edge can do. -/

namespace Sys2Proof.Machine

/-- Settles O32: no edge undoes a value, and the list shrinks by what the position grows. -/
theorem stepKeepsRegistersDefinedAndPositionExact : Obligations.StepKeepsRegistersDefinedAndPositionExact := by
  rintro p n s t ⟨hs, hn⟩ hstep
  exact ⟨stepWith_keeps_initialised hs hstep, (stepWith_keeps_pos_add_length hstep).trans hn⟩

/-- Settles O17: `state_o` is the same after `NOP`, and the other three kinds of edge are the allowed ones. -/
theorem onlyResetInitAndGenWriteR : Obligations.OnlyResetInitAndGenWriteR := by
  refine ⟨fun p s t hstep hne => ?_, fun p s e rest hs hrst hcmd => ?_⟩
  · rcases stepWith_next_cases hstep with ⟨-, rfl⟩ | ⟨e, rest, hs, he⟩
    · exact absurd rfl hne
    · refine ⟨e, rest, hs, ?_⟩
      rcases acceptEdge_next_pins he with ⟨hrst, rfl⟩ | ⟨-, -, rfl⟩ | ⟨hrst, hc, r, v, hr, rfl⟩ |
        ⟨hrst, hc, seed, hseed, rfl⟩
      · exact .inl ⟨hrst, rfl⟩
      · exact absurd (stateO_clearValid (takeEdge rest s)) hne
      · exact .inr (.inr ⟨hrst, hc, r, v, hr, rfl⟩)
      · exact .inr (.inl ⟨hrst, hc, seed, hseed, rfl⟩)
  · rw [stepWith_cons hs, acceptEdge_of_reserved hrst hcmd]

/-- Settles O18: `V` after an edge is the truth value of "the edge was a `GEN`". -/
theorem validFlagSaysTheLastEdgeWasGen : Obligations.ValidFlagSaysTheLastEdgeWasGen := by
  refine ⟨fun p s t e rest hs hstep ht => ?_, exec_valid_irrelevant⟩
  rw [stepWith_cons hs] at hstep
  have hvalid := randValidO_after_edge hstep ht
  exact ⟨by simp [hvalid], by simp [hvalid], randO_of_valid_after_edge (s := takeEdge rest s) hstep ht⟩

/-- Settles O20: each command and port where no value is held; held registers stay held. -/
theorem uninitialisedUntilResetOrInit : Obligations.UninitialisedUntilResetOrInit := by
  refine ⟨rfl, fun s hs => ⟨exec_gen_of_uninitialised hs, ?_, ?_, ?_, ?_, fun seed => rfl⟩,
    fun p s t => stepWith_keeps_initialised⟩
  · simp [randO, hs]
  · simp [randValidO, hs]
  · simp [stateO, hs]
  · rw [exec, execNop, clearValid_of_uninitialised hs]

/-- Settles O15: the frame of `exec`, and the ports over `V <- 0`. -/
theorem commandsLeaveTheRestUnchanged : Obligations.CommandsLeaveTheRestUnchanged := by
  refine ⟨fun i s t => exec_next_input, fun s t h => ?_⟩
  obtain rfl : t = clearValid s := by simpa using exec_next_cases h
  exact ⟨stateO_clearValid s, randO_clearValid s⟩

/-- Settles O29: the step takes the edge, and the edge is its decoded command. -/
theorem stepRunsTheDecodedCommand : Obligations.StepRunsTheDecodedCommand := by
  intro p s e rest i hs hrst hd _
  have hrun (q : Word) : stepWith q s = exec i (takeEdge rest s) := by
    rw [stepWith_cons hs, acceptEdge_of_decodePins hrst hd]
  exact ⟨hrun p, hrun Config.resetSeed⟩

/-- Settles O31: the position and the list after the edge is taken; no edge, no change. -/
theorem positionCountsTheAcceptedEdges : Obligations.PositionCountsTheAcceptedEdges := by
  refine ⟨fun p s t e rest hs hstep => ?_, fun p s => stepWith_nil⟩
  rw [stepWith_cons hs] at hstep
  exact acceptEdge_takeEdge_next hstep

/-- Settles O34: reset writes both registers, and no edge is waiting that could send a zero seed. -/
theorem invariantsHoldAtReset : Obligations.InvariantsHoldAtReset := by
  refine ⟨fun p => ⟨rfl, rfl⟩, rfl, fun p hp => ⟨⟨p, false, rfl, hp⟩, fun e he => ?_⟩⟩
  exact absurd he List.not_mem_nil

end Sys2Proof.Machine
end

section
/-! The host's duties (spec/70_reset_and_hazards.md R103) against the mark of a run and of its observation
(spec/60_exceptions.md R88): one edge first, then the list. -/

namespace Sys2Proof.Machine

/-- An edge keeps the duties exactly when it is accepted. -/
theorem edgeKeepsDuties_iff (p : Word) (e : Edge) (s : State) :
    edgeKeepsDuties e (isDefined s.regs) = true ↔ ∃ t, acceptEdge p e s = .next t := by
  unfold edgeKeepsDuties acceptEdge
  cases levelBit e.rst with
  | none => simp
  | some b =>
    cases b with
    | true => simp
    | false =>
      cases decodePins e with
      | error why => simp
      | ok i =>
        cases i with
        | nop => simp [exec, execNop]
        | init seed => simp [exec, execInit]
        | gen =>
          rcases execGen_cases s with ⟨hr, hg⟩ | ⟨r, v, hr, hg⟩
          · simp [exec, hg, hr, isDefined]
          · simp [exec, hg, hr, isDefined]

theorem unmarked_of_nil {p : Word} {s : State} (h : s.input = []) : Unmarked p s := ⟨s, runAll_nil h⟩

/-- A run is unmarked when its first edge is accepted and the rest of it is unmarked. -/
theorem unmarked_cons {p : Word} {s : State} {e : Edge} {rest : List Edge} (h : s.input = e :: rest) :
    Unmarked p s ↔ ∃ t, acceptEdge p e (takeEdge rest s) = .next t ∧ Unmarked p t := by
  simp only [Unmarked, EndsIn, runAll_cons h]
  cases acceptEdge p e (takeEdge rest s) <;> simp

theorem dutiesKept_iff_unmarked (p : Word) {s : State} {es : List Edge} (h : s.input = es) :
    dutiesKept es (isDefined s.regs) = true ↔ Unmarked p s := by
  induction es generalizing s with
  | nil => exact ⟨fun _ => unmarked_of_nil h, fun _ => rfl⟩
  | cons e rest ih =>
    have hrest {t : State} (ht : acceptEdge p e (takeEdge rest s) = .next t) :
        dutiesKept rest (heldAfter e (isDefined s.regs)) = true ↔ Unmarked p t := by
      have hheld : isDefined t.regs = heldAfter e (isDefined s.regs) :=
        isDefined_after_edge (s := takeEdge rest s) ht
      rw [← hheld]
      exact ih (acceptEdge_takeEdge_next ht).2
    have hedge := edgeKeepsDuties_iff p e (takeEdge rest s)
    rw [takeEdge_regs] at hedge
    rw [dutiesKept, Bool.and_eq_true, hedge, unmarked_cons h]
    constructor
    · rintro ⟨⟨t, ht⟩, hd⟩
      exact ⟨t, ht, (hrest ht).1 hd⟩
    · rintro ⟨t, ht, hu⟩
      exact ⟨⟨t, ht⟩, (hrest ht).2 hu⟩

/-- An observation with no edge left is unmarked when `state_o` can be read. -/
theorem observe_nil_mark (p : Word) (s : State) :
    (observe p [] s).mark = none ↔ isDefined s.regs = true := by
  cases h : s.regs <;> simp [observe, stateO, h, isDefined, markedEnd]

/-- An observation is unmarked when its first edge is accepted, leaves outputs that can be read, and the rest of it
is unmarked. -/
theorem observe_cons_mark (p : Word) (e : Edge) (rest : List Edge) (s : State) :
    (observe p (e :: rest) s).mark = none ↔
      ∃ t, acceptEdge p e s = .next t ∧ isDefined t.regs = true ∧ (observe p rest t).mark = none := by
  rw [observe]
  cases acceptEdge p e s with
  | fault why => simp [markedEnd]
  | refused why => simp [markedEnd]
  | next t => cases h : t.regs <;> simp [readOutputs, randO, randValidO, h, isDefined, markedEnd]

theorem duties_and_reads_iff_observe_unmarked (p : Word) (es : List Edge) (s : State) :
    dutiesKept es (isDefined s.regs) = true ∧ readsAllowed es (isDefined s.regs) = true ↔
      (observe p es s).mark = none := by
  induction es generalizing s with
  | nil => simp [dutiesKept, readsAllowed, observe_nil_mark]
  | cons e rest ih =>
    simp only [dutiesKept, readsAllowed, Bool.and_eq_true, edgeKeepsDuties_iff p, observe_cons_mark, ← ih]
    constructor
    · rintro ⟨⟨⟨t, ht⟩, hd⟩, hheld, hr⟩
      rw [← isDefined_after_edge ht] at hd hheld hr
      exact ⟨t, ht, hheld, hd, hr⟩
    · rintro ⟨t, ht, hheld, hd, hr⟩
      rw [isDefined_after_edge ht] at hd hheld hr
      exact ⟨⟨⟨t, ht⟩, hd⟩, hheld, hr⟩

/-- Settles O46: edge by edge, keeping the duties is being accepted, and a held value is a readable output. -/
theorem dutiesKeptExactlyWhenUnmarked : Obligations.DutiesKeptExactlyWhenUnmarked := by
  intro p s
  exact ⟨dutiesKept_iff_unmarked p rfl, duties_and_reads_iff_observe_unmarked p s.input s⟩

end Sys2Proof.Machine
end

section
/-! Repeating a command (spec/20_memory.md R38): `NOP` and `INIT` keep the state they leave, and no nonzero `R` is a
fixed point of `GEN`. The last one goes down the powers of two from the eight Galois steps of a `GEN` to a single one:
`galoisSteps n r ^^^ r` is a fixed point of `n` steps whenever `r` is one of `n + n`. -/

namespace Sys2Proof.Machine

theorem execTimes_succ_of_next {i : Instr} {s t : State} (h : exec i s = .next t) (n : Nat) :
    execTimes i (n + 1) s = execTimes i n t := by rw [execTimes, h]

theorem execTimes_of_fixed {i : Instr} {t : State} (h : exec i t = .next t) (n : Nat) :
    execTimes i n t = .next t := by
  induction n with
  | zero => rfl
  | succ n ih => rw [execTimes_succ_of_next h, ih]

/-- A command that keeps the state it leaves is idempotent. -/
theorem execTimes_of_next_fixed {i : Instr} {s t : State} (h : exec i s = .next t) (hfix : exec i t = .next t)
    (n : Nat) : execTimes i (n + 1) s = exec i s := by
  rw [execTimes_succ_of_next h, execTimes_of_fixed hfix, h]

@[simp] theorem clearValid_clearValid (s : State) : clearValid (clearValid s) = clearValid s := by
  cases h : s.regs with
  | uninitialised => rw [clearValid_of_uninitialised h, clearValid_of_uninitialised h]
  | defined r v => rw [clearValid_of_defined h, clearValid_of_defined (writeRegs_regs r false s)]; rfl

theorem eq_zero_of_shiftLeft_one_eq {r : Word} (h : r <<< 1 = r) : r = 0#16 := by
  bv_omega

/-- The shift alone fixes zero only; with the tap, `r ^^^ 0x001B` would be fixed by the shift, and `0x001B` does not
shift its top bit out. -/
theorem eq_zero_of_galoisStep_eq {r : Word} (h : galoisStep r = r) : r = 0#16 := by
  cases htop : r.getLsbD 15 with
  | false =>
    rw [galoisStep, htop] at h
    have hshift : r <<< 1 = r := by simpa using h
    exact eq_zero_of_shiftLeft_one_eq hshift
  | true =>
    rw [galoisStep, htop] at h
    have hstep : r <<< 1 ^^^ 0x002D#16 = r := h
    have hshift : (r ^^^ 0x001B#16) <<< 1 = r ^^^ 0x001B#16 := by
      calc (r ^^^ 0x001B#16) <<< 1
        _ = r <<< 1 ^^^ (0x002D#16 ^^^ 0x001B#16) := BitVec.shiftLeft_xor_distrib r 0x001B#16 1
        _ = r ^^^ 0x001B#16 := by rw [← BitVec.xor_assoc, hstep]
    obtain rfl : r = 0x001B#16 := BitVec.xor_eq_zero_iff.1 (eq_zero_of_shiftLeft_one_eq hshift)
    exact absurd htop (by decide)

/-- Where `n` Galois steps fix zero only, `n + n` of them do. -/
theorem eq_zero_of_galoisSteps_double_eq {n : Nat} (hn : ∀ r, galoisSteps n r = r → r = 0#16) {r : Word}
    (h : galoisSteps (n + n) r = r) : r = 0#16 := by
  rw [galoisSteps_add] at h
  have hfix : galoisSteps n (galoisSteps n r ^^^ r) = galoisSteps n r ^^^ r := by
    rw [galoisSteps_xor, h, BitVec.xor_comm]
  exact hn r (BitVec.xor_eq_zero_iff.1 (hn _ hfix))

/-- `GEN` fixes zero only (R38). -/
theorem eq_zero_of_generate_eq {r : Word} (h : generate r = r) : r = 0#16 := by
  have h1 (x : Word) (hx : galoisSteps 1 x = x) : x = 0#16 := eq_zero_of_galoisStep_eq hx
  have h2 (x : Word) (hx : galoisSteps 2 x = x) : x = 0#16 := eq_zero_of_galoisSteps_double_eq h1 hx
  have h4 (x : Word) (hx : galoisSteps 4 x = x) : x = 0#16 := eq_zero_of_galoisSteps_double_eq h2 hx
  rw [generate_eq_galoisSteps] at h
  exact eq_zero_of_galoisSteps_double_eq h4 h

/-- Settles O16: `V <- 0` and the seed are written to the same effect again; `GEN` fixes zero only. -/
theorem idempotencyOfTheCommands : Obligations.IdempotencyOfTheCommands := by
  refine ⟨fun s n => ?_, fun s seed n => execTimes_of_next_fixed rfl rfl n, fun s t r v hs hr hgen hsame => ?_⟩
  · have hfix : exec .nop (clearValid s) = .next (clearValid s) := by simp [exec, execNop]
    exact execTimes_of_next_fixed rfl hfix n
  · obtain rfl : writeRegs (generate r) true s = t := by simpa [exec_gen_of_defined hs] using hgen
    have hgenerate : generate r = r := by
      simpa [stateO_of_defined hs, stateO_of_defined (writeRegs_regs (generate r) true s)] using hsame
    exact hr (eq_zero_of_generate_eq hgenerate)

end Sys2Proof.Machine
end

section
/-! The pins and the bits of `R` (spec/20_memory.md R33): wire `i` of a known bus carries bit `i` of its value, and
that value is what `INIT` stores. -/

namespace Sys2Proof.Machine

theorem levelBit_wire_of_busValue {n : Nat} {b : Bus n} {v : BitVec n} (h : busValue b = some v) {i : Nat}
    (hi : i < n) : (b.wires[i]?).bind levelBit = some (v.getLsbD i) := by
  obtain rfl : b = busDrive v := eq_busDrive_of_busValue h
  have hlen : i < (busDrive v).wires.length := (busDrive v).width.symm ▸ hi
  have hvalue : levelsValue (busDrive v).wires = some v.toNat := by
    simp [busDrive, levelsValue_levelsOf, Nat.mod_eq_of_lt v.isLt]
  rw [List.getElem?_eq_getElem hlen, Option.bind_some, getElem_of_levelsValue hvalue i hlen,
    BitVec.testBit_toNat]

theorem decodePins_of_init {e : Edge} {seed : Word} (hcmd : busValue e.cmd = some 0b10#2)
    (hseed : busValue e.seed = some seed) : decodePins e = .ok (.init seed) := by
  simp [decodePins, hcmd, hseed]

/-- Settles O19: the edge is an `INIT` with the number on the wires; the ports read the bits of `R`. -/
theorem pinsMapToBitsWithoutSwap : Obligations.PinsMapToBitsWithoutSwap := by
  refine ⟨fun p s e rest seed hs hrst hcmd hseed => ?_, fun s r v hs => ?_⟩
  · have hstep : stepWith p s = .next (writeRegs seed false (takeEdge rest s)) := by
      rw [stepWith_cons hs, acceptEdge_of_decodePins hrst (decodePins_of_init hcmd hseed), exec, execInit]
    exact ⟨_, seed, hstep, rfl, fun i => levelBit_wire_of_busValue hseed⟩
  · refine ⟨lowByte r, r, randO_of_defined hs, stateO_of_defined hs, fun i hi => ?_, fun i _ => rfl⟩
    rw [getLsbD_lowByte, decide_eq_true hi, Bool.true_and]

end Sys2Proof.Machine
end

section
/-! Runs compose (spec/20_memory.md R41): a run is its edges one after the other, each from the state the one before
left, and the first stop is the run's (spec/60_exceptions.md R88). -/

namespace Sys2Proof.Machine

/-- What follows an outcome: `k` from the next state, while a fault or a refusal stays as it is (R88). -/
def andThen (o : Host.Outcome State Fault Refusal) (k : State → Host.Outcome State Fault Refusal) :
    Host.Outcome State Fault Refusal :=
  match o with
  | .next t => k t
  | .fault why => .fault why
  | .refused why => .refused why

@[simp] theorem andThen_next (t : State) (k : State → Host.Outcome State Fault Refusal) :
    andThen (.next t) k = k t := rfl
@[simp] theorem andThen_fault (why : Fault) (k : State → Host.Outcome State Fault Refusal) :
    andThen (.fault why) k = .fault why := rfl
@[simp] theorem andThen_refused (why : Refusal) (k : State → Host.Outcome State Fault Refusal) :
    andThen (.refused why) k = .refused why := rfl

theorem andThen_assoc (o : Host.Outcome State Fault Refusal) (k k' : State → Host.Outcome State Fault Refusal) :
    andThen (andThen o k) k' = andThen o (fun t => andThen (k t) k') := by
  cases o <;> rfl

@[simp] theorem withEdges_input (es : List Edge) (s : State) : (withEdges es s).input = es := rfl

/-- A run over a list is its first edge and then the run over the rest: the edge does not see the edges after it. -/
theorem runAll_withEdges_cons (p : Word) (e : Edge) (es : List Edge) (s : State) :
    runAll p (withEdges (e :: es) s) =
      andThen (acceptEdge p e (takeEdge [] s)) (fun t => runAll p (withEdges es t)) := by
  have hregs : (takeEdge es (withEdges (e :: es) s)).regs = (takeEdge [] s).regs := rfl
  rw [runAll_cons (withEdges_input (e :: es) s)]
  rcases acceptEdge_of_same_regs p e hregs with ⟨rv, h1, h2⟩ | ⟨why, h1, h2⟩ | ⟨why, h1, h2⟩
  · rw [h1, h2]; rfl
  · rw [h1, h2]; rfl
  · rw [h1, h2]; rfl

theorem runAll_withEdges_append (p : Word) (es es' : List Edge) (s : State) :
    runAll p (withEdges (es ++ es') s) =
      andThen (runAll p (withEdges es s)) (fun t => runAll p (withEdges es' t)) := by
  induction es generalizing s with
  | nil => rw [runAll_nil (withEdges_input [] s)]; rfl
  | cons e es ih => simp only [List.cons_append, runAll_withEdges_cons, andThen_assoc, ih]

/-- Settles O44: the run over two lists is the first run and what follows its outcome. -/
theorem runsComposeInOrder : Obligations.RunsComposeInOrder := by
  intro p es es' s
  rw [runAll_withEdges_append]
  refine ⟨fun t h => ?_, fun why h => ?_, fun why h => ?_⟩
  · rw [h, andThen_next]
  · rw [h, andThen_fault]
  · rw [h, andThen_refused]

end Sys2Proof.Machine
end

section
/-! A command word is its `op` before its `imm16` (spec/30_encoding.md R45, R46): the decoder, the encoder and the
mask of R47 on a word written so. -/

namespace Sys2Proof

open Machine

@[simp] theorem opField_append (cmd : BitVec 2) (imm : Word) : opField (cmd ++ imm) = cmd :=
  BitVec.extractLsb'_append_eq_left

@[simp] theorem immField_append (cmd : BitVec 2) (imm : Word) : immField (cmd ++ imm) = imm :=
  BitVec.extractLsb'_append_eq_right

theorem eq_append_of_commandWord (w : CommandWord) : ∃ (cmd : BitVec 2) (imm : Word), w = cmd ++ imm :=
  ⟨opField w, immField w, (BitVec.extractLsb'_append_extractLsb' (w := 2) (len := 16)).symm⟩

@[simp] theorem decode_append (cmd : BitVec 2) (imm : Word) : decode (cmd ++ imm) = decodeFields cmd (some imm) := by
  rw [decode, opField_append, immField_append]

/-- The mask of the opcode map keeps `op` and clears `imm16` (R47). -/
theorem append_and_opMask (cmd : BitVec 2) (imm : Word) : (cmd ++ imm) &&& 0x30000#18 = cmd ++ 0#16 := by
  have hmask : 0x30000#18 = BitVec.allOnes 2 ++ 0#16 := by decide
  rw [hmask, BitVec.and_append, BitVec.and_allOnes, BitVec.and_zero]

theorem encode_nop : encode .nop = 0b00#2 ++ 0#16 := by decide

theorem encode_gen : encode .gen = 0b01#2 ++ 0#16 := by decide

theorem encode_init (seed : Word) : encode (.init seed) = 0b10#2 ++ seed := by
  rw [encode, BitVec.append_def]
  rfl

@[simp] theorem decode_encode (i : Instr) : decode (encode i) = .ok i := by
  cases i with
  | nop => rw [encode_nop, decode_append, decodeFields_nop]
  | gen => rw [encode_gen, decode_append, decodeFields_gen]
  | init seed => rw [encode_init, decode_append, decodeFields_init]

/-- No bit of a command word is lost in a table word that is at least as wide. -/
theorem tableWord_toNat {nbits : Nat} (hwide : 18 ≤ nbits) (w : CommandWord) : tableWord nbits w.toNat = w := by
  have hfits : w.toNat < 2 ^ nbits := w.isLt.trans_le (Nat.pow_le_pow_right two_pos hwide)
  rw [tableWord, Nat.mod_eq_of_lt hfits, BitVec.ofNat_toNat, BitVec.setWidth_eq]

theorem decodeTableWord_encode {nbits : Nat} (hwide : 18 ≤ nbits) (i : Instr) :
    decodeTableWord nbits (encode i).toNat = some i := by
  rw [decodeTableWord, tableWord_toNat hwide, decode_encode]

/-- A word that decodes to a command is the command's own up to the `imm16` it ignores (R50). -/
theorem encode_of_decode_ok {w : CommandWord} {i : Instr} (h : decode w = .ok i) : encode i = canonicalWord w := by
  obtain ⟨cmd, imm, rfl⟩ := eq_append_of_commandWord w
  rw [decode_append] at h
  rw [canonicalWord, opField_append]
  rcases op_cases cmd with rfl | rfl | rfl | rfl
  · cases h; rfl
  · cases h; rfl
  · cases h; exact encode_init imm
  · cases h

/-- Settles O37: a command's word is its `op` before its `imm16`, and the decoder reads the two fields back. -/
theorem decodeAndEncodeAgree : Obligations.DecodeAndEncodeAgree := by
  refine ⟨fun i _ => ⟨decode_encode i, ?_, decodeTableWord_encode (by decide) i,
    decodeTableWord_encode (by decide) i⟩, fun w i => encode_of_decode_ok⟩
  rw [decodePins_commandEdge, decode_encode]

/-- Settles O35: under the mask only `op` is left, and each of its four values is one row. -/
theorem everyWordMatchesExactlyOneRow : Obligations.EveryWordMatchesExactlyOneRow := by
  intro w
  obtain ⟨cmd, imm, rfl⟩ := eq_append_of_commandWord w
  rw [append_and_opMask, decode_append]
  rcases op_cases cmd with rfl | rfl | rfl | rfl <;> simp

/-- Settles O36: `opOf` on each of the four values of `cmd_i`. -/
theorem opBitsAreStrobes : Obligations.OpBitsAreStrobes := by
  intro cmd
  rcases op_cases cmd with rfl | rfl | rfl | rfl <;> simp

/-- Settles O38: each word is a row's `op` before an `imm16`. -/
theorem writtenOutWordsDecode : Obligations.WrittenOutWordsDecode :=
  ⟨decode_append 0b00#2 0x0000#16, decode_append 0b00#2 0x1234#16, decode_append 0b01#2 0x0000#16,
    decode_append 0b01#2 0xFFFF#16, decode_append 0b10#2 0xBABE#16, decode_append 0b10#2 0x0001#16,
    decode_append 0b11#2 0x0000#16⟩

end Sys2Proof
end

section
/-! The assembler's checks and words, and the disassembler's lines (spec/30_encoding.md R55, R57). -/

namespace Sys2Proof.Machine

theorem assembleLine_of_problem {l : AsmLine} {why : AsmError} (h : l.problem = some why) :
    assembleLine l = .error why := by rw [assembleLine, h]

theorem assembleLine_of_no_problem {l : AsmLine} (h : l.problem = none) :
    assembleLine l = .ok (expandLine l) := by rw [assembleLine, h]

/-- A line that assembles gives the edges it expands to. -/
theorem eq_expandLine_of_assembleLine {l : AsmLine} {es : List Edge} (h : assembleLine l = .ok es) :
    es = expandLine l := by
  cases hl : l.problem with
  | some why => rw [assembleLine_of_problem hl] at h; cases h
  | none => rw [assembleLine_of_no_problem hl] at h; cases h; rfl

theorem assembleLine_init {v : Nat} (hv : v ≤ 65535) :
    assembleLine (.init v) = .ok [commandEdge (encode (.init (BitVec.ofNat 16 v)))] :=
  assembleLine_of_no_problem (if_pos hv)

/-- The word of an operand in range is the operand under the `op` of `INIT` (R57). -/
theorem encode_init_ofNat {v : Nat} (hv : v ≤ 65535) :
    encode (.init (BitVec.ofNat 16 v)) = 0x20000#18 ||| BitVec.ofNat 18 v := by
  rw [encode, BitVec.setWidth_ofNat_of_le_of_lt (by decide) (by omega)]

theorem disassemble_of_ok {w : CommandWord} {i : Instr} (h : decode w = .ok i) :
    disassemble w = .command i := by rw [disassemble, h]

theorem disassemble_of_error {w : CommandWord} {why : DecodeError} (h : decode w = .error why) :
    disassemble w = .reserved w := by rw [disassemble, h]

/-- Settles O39: the encoder gives the canonical words; the row of R47 a word is in says what is printed. -/
theorem canonicalWordsAndDisassembly : Obligations.CanonicalWordsAndDisassembly := by
  refine ⟨rfl, rfl, fun v hv => ?_, ?_, fun w hw => ?_, fun w hw => ?_, fun w hw => ?_⟩
  · rw [assembleLine_init hv, encode_init_ofNat hv]
  · exact assembleLine_init (by decide)
  all_goals obtain ⟨hnop, hgen, -, hreserved, -⟩ := everyWordMatchesExactlyOneRow w
  · rw [disassemble_of_ok (hnop.2 hw), listingText]
  · rw [disassemble_of_ok (hgen.2 hw), listingText]
  · rw [disassemble_of_error (hreserved.2 hw), listingText]
    exact ⟨rfl, rfl⟩

/-- Settles O41: the range check, and the word of an operand in range decoded from the pins. -/
theorem assemblerChecksTheSeedRange : Obligations.AssemblerChecksTheSeedRange := by
  refine ⟨fun v hv => assembleLine_of_problem (if_neg (Nat.not_le.2 hv)), fun v hv => ?_, resetEdge, rfl, rfl⟩
  refine ⟨_, assembleLine_init hv, rfl, ?_, ?_⟩
  · rw [decodePins_commandEdge, decode_encode]
  · rw [BitVec.toNat_ofNat, Nat.mod_eq_of_lt (by omega)]

end Sys2Proof.Machine
end

section
/-! A repeated command (spec/30_encoding.md R56): a list of edges that carry its word runs as that many executions of
it, whatever the list and the position are. -/

namespace Sys2Proof.Machine

/-- An edge that carries a command's word does to the registers what the command does to the same registers. -/
theorem acceptEdge_commandEdge_encode (p : Word) {i : Instr} {s s' t : State} (hregs : s.regs = s'.regs)
    (h : exec i s' = .next t) :
    ∃ u, acceptEdge p (commandEdge (encode i)) s = .next u ∧ u.regs = t.regs := by
  have hdecode : decodePins (commandEdge (encode i)) = .ok i := by rw [decodePins_commandEdge, decode_encode]
  rw [acceptEdge_of_decodePins rfl hdecode]
  rcases exec_of_same_regs i hregs with ⟨rv, hs, hs'⟩ | ⟨-, hs'⟩
  · rw [hs'] at h
    cases h
    exact ⟨_, hs, rfl⟩
  · rw [hs'] at h
    cases h

theorem runAll_replicate_of_execTimes (p : Word) {i : Instr} {n : Nat} {s s' u : State} (hregs : s.regs = s'.regs)
    (h : execTimes i n s' = .next u) :
    ∃ t, runAll p (withEdges (List.replicate n (commandEdge (encode i))) s) = .next t ∧ t.regs = u.regs := by
  induction n generalizing s s' with
  | zero =>
    cases h
    exact ⟨_, runAll_nil rfl, hregs⟩
  | succ n ih =>
    cases hexec : exec i s' with
    | fault why => simp [execTimes, hexec] at h
    | refused why => simp [execTimes, hexec] at h
    | next t' =>
      rw [execTimes_succ_of_next hexec] at h
      obtain ⟨t, ht, htregs⟩ := acceptEdge_commandEdge_encode p (s := takeEdge [] s) hregs hexec
      rw [List.replicate_succ, runAll_withEdges_cons, ht, andThen_next]
      exact ih htregs h

theorem execTimes_gen_completes {s : State} (hs : Initialised s) (n : Nat) : ∃ u, execTimes .gen n s = .next u := by
  obtain ⟨r, v, hr⟩ := (initialised_iff s).1 hs
  cases n with
  | zero => exact ⟨s, rfl⟩
  | succ n => exact ⟨_, execTimes_gen hr n⟩

theorem execTimes_nop_completes (s : State) (n : Nat) : ∃ u, execTimes .nop n s = .next u := by
  induction n generalizing s with
  | zero => exact ⟨s, rfl⟩
  | succ n ih => exact ih (clearValid s)

/-- A line that assembles to `n` edges of a command runs as `n` executions of it, where these complete. -/
theorem runAll_of_assembleLine (p : Word) {l : AsmLine} {i : Instr} {n : Nat} {s : State} {es : List Edge}
    (hes : assembleLine l = .ok es) (hl : expandLine l = List.replicate n (commandEdge (encode i)))
    (hrun : ∃ u, execTimes i n s = .next u) :
    ∃ t u, runAll p (withEdges es s) = .next t ∧ execTimes i n s = .next u ∧ t.regs = u.regs := by
  obtain ⟨u, hu⟩ := hrun
  obtain ⟨t, ht, hregs⟩ := runAll_replicate_of_execTimes p rfl hu
  rw [eq_expandLine_of_assembleLine hes, hl]
  exact ⟨t, u, ht, hu, hregs⟩

/-- Settles O40: the check on the count, and the `n` edges run as `n` executions that complete. -/
theorem pseudoInstructionsExpand : Obligations.PseudoInstructionsExpand := by
  refine ⟨fun n hn => assembleLine_of_no_problem (if_pos hn), fun n hn => assembleLine_of_no_problem (if_pos hn),
    ⟨rfl, rfl⟩, fun p n s es hs hes => ?_, fun p n s es hes => ?_⟩
  · exact runAll_of_assembleLine p hes rfl (execTimes_gen_completes hs n)
  · exact runAll_of_assembleLine p hes rfl (execTimes_nop_completes s n)

end Sys2Proof.Machine
end

section
/-! `NOP` and `INIT` (spec/40_init_nop.md R59 to R61): the words of each row, what the command writes, and what the
ports then show. -/

namespace Sys2Proof

/-- A word in the row of `cmd` is decoded by that `op`, its `imm16` being the operand (R46, R47). -/
theorem decode_of_row {w : CommandWord} {cmd : BitVec 2} (h : w &&& 0x30000#18 = cmd ++ 0#16) :
    decode w = decodeFields cmd (some (immField w)) := by
  obtain ⟨op, imm, rfl⟩ := eq_append_of_commandWord w
  rw [append_and_opMask] at h
  obtain rfl : op = cmd := by rw [← opField_append op 0#16, h, opField_append]
  rw [decode_append, immField_append]

end Sys2Proof

namespace Sys2Proof.Machine

theorem exec_nop (s : State) : exec .nop s = .next (clearValid s) := rfl

theorem exec_init (seed : Word) (s : State) : exec (.init seed) s = .next (writeRegs seed false s) := rfl

theorem exec_nop_of_defined {s : State} {r : Word} {v : Bool} (h : s.regs = .defined r v) :
    exec .nop s = .next (writeRegs r false s) := by rw [exec_nop, clearValid_of_defined h]

theorem generate_zero : generate 0x0000#16 = 0x0000#16 := by decide

/-- Zero is degenerate: any number of `GEN`s keeps it (R60; spec/41_generate.md R77). -/
theorem execTimes_gen_zero {s : State} {v : Bool} (h : s.regs = .defined 0x0000#16 v) (n : Nat) :
    execTimes .gen (n + 1) s = .next (writeRegs 0x0000#16 true s) := by
  rw [execTimes_gen h, Function.iterate_fixed generate_zero]

/-- Settles O1: the row of `op = 00`, and `NOP` as `V <- 0` on registers that hold a value and on those that do not. -/
theorem nopKeepsRAndClearsValid : Obligations.NopKeepsRAndClearsValid := by
  obtain ⟨hrepeat, -, -⟩ := idempotencyOfTheCommands
  refine ⟨fun w hw => decode_of_row (cmd := 0b00#2) hw, fun s r v hs => exec_nop_of_defined hs, fun s hs => ?_,
    hrepeat, fun s t r v hs hexec => ?_, fun s hs => ⟨_, exec_nop_of_defined hs, rfl, rfl⟩⟩
  · rw [exec_nop, clearValid_of_uninitialised hs]
  · obtain rfl : writeRegs r false s = t := by simpa [exec_nop_of_defined hs] using hexec
    exact ⟨(randO_of_defined hs).symm, rfl⟩

/-- Settles O2: the row of `op = 10`, and `INIT` as one write of both registers whatever they held. -/
theorem initStoresTheSeedExactly : Obligations.InitStoresTheSeedExactly := by
  refine ⟨fun w hw => decode_of_row (cmd := 0b10#2) hw, fun s seed => exec_init seed s, fun s t seed hexec => ?_,
    fun s n => ⟨_, _, exec_init 0x0000#16 s, execTimes_gen_zero rfl n, rfl, rfl⟩,
    decode_append 0b10#2 0xBABE#16, fun s t hexec => ?_⟩
  · cases hexec
    exact ⟨rfl, rfl, rfl⟩
  · cases hexec
    exact ⟨rfl, rfl⟩

end Sys2Proof.Machine
end

section
/-! What is observed after an `INIT` (spec/40_init_nop.md R62 to R64): the run goes on as from a fresh instance with
that seed, and each `GEN` then gives the next byte of the seed's sequence. -/

namespace Sys2Proof.Machine

/-- An observation that begins with one more pair of outputs. -/
def Observation.prepend (out : Byte × Bool) (later : Observation) : Observation :=
  { later with outputs := out :: later.outputs }

theorem readOutputs_of_defined {s : State} {r : Word} {v : Bool} (h : s.regs = .defined r v) :
    readOutputs s = .ok (lowByte r, v) := by rw [readOutputs, randO_of_defined h, randValidO_of_defined h]

theorem observe_nil_of_defined (p : Word) {s : State} {r : Word} {v : Bool} (h : s.regs = .defined r v) :
    observe p [] s = { outputs := [], finalState := some r, mark := none } := by rw [observe, stateO_of_defined h]

/-- An accepted edge that leaves held registers adds what the ports show of them. -/
theorem observe_cons_of_next {p : Word} {e : Edge} {es : List Edge} {s t : State} {r : Word} {v : Bool}
    (hedge : acceptEdge p e s = .next t) (ht : t.regs = .defined r v) :
    observe p (e :: es) s = (observe p es t).prepend (lowByte r, v) := by
  simp only [observe, hedge, readOutputs_of_defined ht, Observation.prepend]

theorem acceptEdge_encode (p : Word) (i : Instr) (s : State) :
    acceptEdge p (commandEdge (encode i)) s = exec i s :=
  acceptEdge_of_decodePins rfl ((decodePins_commandEdge _).trans (decode_encode i))

/-- After `INIT seed` a run is observed as from a fresh instance with that seed (R62). -/
theorem observe_init_cons (p seed : Word) (es : List Edge) (s : State) :
    observe p (commandEdge (encode (.init seed)) :: es) s =
      (observe p es (State.resetWith seed)).prepend (lowByte seed, false) := by
  have hedge := (acceptEdge_encode p (.init seed) s).trans (exec_init seed s)
  have hfresh : (writeRegs seed false s).regs = (State.resetWith seed).regs := rfl
  rw [observe_cons_of_next hedge rfl, observe_of_same_regs p es hfresh]

/-- Each `GEN` shows the byte of the next value of the sequence, valid (R64; spec/41_generate.md R72). -/
theorem observe_replicate_gen (p : Word) (n : Nat) {s : State} {r : Word} {v : Bool} (h : s.regs = .defined r v) :
    observe p (List.replicate n (commandEdge (encode .gen))) s =
      { outputs := (List.range n).map fun k => (generatedByte (generate^[k] r), true)
        finalState := some (generate^[n] r), mark := none } := by
  induction n generalizing s r v with
  | zero => exact observe_nil_of_defined p h
  | succ n ih =>
    have hedge := (acceptEdge_encode p .gen s).trans (exec_gen_of_defined h)
    rw [List.replicate_succ, observe_cons_of_next hedge rfl, ih rfl, lowByte_generate]
    simp [Observation.prepend, List.range_succ_eq_map]

/-- The host collects every byte of a stream that is valid throughout (spec/70_reset_and_hazards.md R101). -/
theorem collectedBytes_map_valid {α : Type} (byte : α → Byte) (ks : List α) :
    collectedBytes (ks.map fun k => (byte k, true)) = ks.map byte := by
  induction ks with
  | nil => rfl
  | cons k ks ih => rw [List.map_cons, collectedBytes, ih, List.map_cons]

/-- Settles O42: both observations are the one of the fresh instance. -/
theorem initErasesThePast : Obligations.InitErasesThePast := by
  intro p seed es s s'
  rw [observe_init_cons, observe_init_cons]

/-- Settles O43: `INIT` adds a pair that is not valid, and the `GEN`s run from the fresh instance. -/
theorem bootOrderYieldsTheSequence : Obligations.BootOrderYieldsTheSequence := by
  intro p seed n s
  rw [observe_init_cons, observe_replicate_gen p n (r := seed) (v := false) rfl]
  exact ⟨rfl, rfl, collectedBytes_map_valid _ _⟩

end Sys2Proof.Machine
end

section
/-! `GEN` keeps a nonzero `R` nonzero, so `R` becomes zero only by a zero seed (spec/41_generate.md R78,
spec/60_exceptions.md R84, spec/70_reset_and_hazards.md R99). -/

namespace Sys2Proof.Machine

/-- The tap puts the bit that was shifted out into bit 0, so no bit of the register is lost. -/
theorem eq_zero_of_galoisStep_eq_zero {r : Word} (h : galoisStep r = 0#16) : r = 0#16 := by
  have htop : r.getLsbD 15 = false := by
    have hbit := congrArg (fun x : Word => x.getLsbD 0) h
    cases hr : r.getLsbD 15 <;> simp [galoisStep, hr] at hbit ⊢
  have hshift : r <<< 1 = 0#16 := by
    rw [galoisStep, htop] at h
    simpa using h
  have hsmall : 2 * r.toNat < 2 ^ 16 := BitVec.msb_eq_false_iff_two_mul_lt.1 htop
  bv_omega

theorem galoisStep_injective : Function.Injective galoisStep := by
  intro a b h
  have hxor : galoisStep (a ^^^ b) = 0#16 := by rw [galoisStep_xor, h, BitVec.xor_self]
  exact BitVec.xor_eq_zero_iff.1 (eq_zero_of_galoisStep_eq_zero hxor)

theorem galoisSteps_eq_iterate (n : Nat) : galoisSteps n = galoisStep^[n] := by
  induction n with
  | zero => rfl
  | succ n ih => funext r; rw [galoisSteps, ih, Function.iterate_succ_apply]

theorem generate_eq_iterate : generate = galoisStep^[8] := by
  funext r; rw [generate_eq_galoisSteps, galoisSteps_eq_iterate]

theorem generate_injective : Function.Injective generate :=
  generate_eq_iterate ▸ galoisStep_injective.iterate 8

theorem generate_bijective : Function.Bijective generate :=
  Finite.injective_iff_bijective.1 generate_injective

/-- A nonzero `R` never becomes zero by `GEN` (R78). -/
theorem generate_ne_zero {r : Word} (h : r ≠ 0#16) : generate r ≠ 0#16 :=
  fun hzero => h (generate_injective (hzero.trans generate_zero.symm))

theorem eq_of_exec_gen {s t : State} {r : Word} {v : Bool} (hs : s.regs = .defined r v)
    (h : exec .gen s = .next t) : t = writeRegs (generate r) true s := by
  simpa [exec_gen_of_defined hs] using h.symm

/-- An edge that is no zero seed leaves a nonzero `R` nonzero (R99). -/
theorem acceptEdge_keeps_nonzero {p : Word} {e : Edge} {s t : State} (hedge : edgeZeroes p e = false)
    (hs : ∃ r v, s.regs = .defined r v ∧ r ≠ 0#16) (h : acceptEdge p e s = .next t) :
    ∃ r v, t.regs = .defined r v ∧ r ≠ 0#16 := by
  obtain ⟨r, v, hr, hne⟩ := hs
  rcases acceptEdge_next_cases h with ⟨hrst, rfl⟩ | ⟨hrst, i, hd, hi⟩
  · exact ⟨p, false, rfl, by simpa [edgeZeroes, hrst] using hedge⟩
  · cases i with
    | nop =>
      obtain rfl : writeRegs r false s = t := by simpa [exec_nop_of_defined hr] using hi
      exact ⟨r, false, rfl, hne⟩
    | gen =>
      obtain rfl := eq_of_exec_gen hr hi
      exact ⟨generate r, true, rfl, generate_ne_zero hne⟩
    | init seed =>
      obtain rfl : writeRegs seed false s = t := by simpa [exec_init] using hi
      exact ⟨seed, false, rfl, by simpa [edgeZeroes, hrst, hd] using hedge⟩

/-- Settles O33: the edge taken is no zero seed, and the edges left were among those before. -/
theorem stepKeepsTheStateNonDegenerate : Obligations.StepKeepsTheStateNonDegenerate := by
  rintro p s t ⟨hs, hedges⟩ hstep
  rcases stepWith_next_cases hstep with ⟨-, rfl⟩ | ⟨e, rest, hinput, he⟩
  · exact ⟨hs, hedges⟩
  · rw [hinput] at hedges
    obtain ⟨-, hrest⟩ := acceptEdge_takeEdge_next he
    refine ⟨acceptEdge_keeps_nonzero (s := takeEdge rest s) (hedges e List.mem_cons_self) hs he, fun e' he' => ?_⟩
    rw [hrest] at he'
    exact hedges e' (List.mem_cons_of_mem e he')

end Sys2Proof.Machine
end

section
/-! The loop of `GEN` seen iteration by iteration: it meets the equations of its steps, and it is the chain of wires
and the Galois steps (spec/41_generate.md R66 to R75). -/

namespace Sys2Proof.Machine

/-- The last iteration comes after the `n` before it (R70). -/
theorem iterations_succ (n : Nat) (w : Work) : iterations (n + 1) w = iteration (iterations n w) := by
  induction n generalizing w with
  | zero => rfl
  | succ n ih => rw [iterations, ih]; rfl

/-- Values that meet the equations of steps 3a to 3c are those the iterations give. -/
theorem iterations_of_equations {a high : Nat → Byte} {shiftCarry rotateCarry : Nat → Bool} {n : Nat} {w : Work}
    (ha : a 0 = w.a) (hhigh : high 0 = w.high)
    (hshift : ∀ k < n, shiftCarry (k + 1) = (a k).getLsbD 7)
    (hrotate : ∀ k < n, high (k + 1) = (high k).extractLsb' 0 7 ++ BitVec.ofBool (shiftCarry (k + 1)))
    (hcarry : ∀ k < n, rotateCarry (k + 1) = (high k).getLsbD 7)
    (hfeedback : ∀ k < n, a (k + 1) = if rotateCarry (k + 1) then (a k <<< 1) ^^^ 0x2D#8 else a k <<< 1) :
    (iterations n w).a = a n ∧ (iterations n w).high = high n := by
  induction n with
  | zero => exact ⟨ha.symm, hhigh.symm⟩
  | succ n ih =>
    have hlast : n < n + 1 := n.lt_succ_self
    obtain ⟨iha, ihhigh⟩ := ih (fun k hk => hshift k (hk.trans hlast)) (fun k hk => hrotate k (hk.trans hlast))
      (fun k hk => hcarry k (hk.trans hlast)) (fun k hk => hfeedback k (hk.trans hlast))
    rw [iterations_succ, iteration_a, iteration_high, iha, ihhigh]
    constructor
    · rw [hfeedback n hlast, hcarry n hlast]; rfl
    · rw [hrotate n hlast, hshift n hlast]; rfl

/-- Settles O3: the eight iterations, run on the halves of `R`, end in `high 8` and `a 8`. -/
theorem genRunsTheEightIterations : Obligations.GenRunsTheEightIterations := by
  refine ⟨fun r => rfl, fun s r v a high shiftCarry rotateCarry hs ha hhigh hshift hrotate hcarry hfeedback => ?_⟩
  obtain ⟨hfinalA, hfinalHigh⟩ :=
    iterations_of_equations (w := startWork r) ha hhigh hshift hrotate hcarry hfeedback
  have hgenerate : generate r = joinBytes (high 8) (a 8) := by rw [generate, finalWork, hfinalA, hfinalHigh]
  refine ⟨_, exec_gen_of_defined hs, ?_, ?_⟩
  · rw [hgenerate]; rfl
  · rw [randO_of_defined rfl, hgenerate, lowByte_joinBytes]

/-- The wires that carry the working values of an iteration (R74). -/
def Work.stage (w : Work) : Stage := { a := w.a, h := w.high }

/-- `shl8` drops the top bit and puts a zero at the bottom (R10). -/
theorem shl8_eq_append (v : Byte) : shl8 v = v.extractLsb' 0 7 ++ 0#1 := by
  apply BitVec.eq_of_getLsbD_eq
  intro i hi
  rw [getLsbD_shl8, BitVec.getLsbD_append]
  rcases Nat.eq_zero_or_pos i with rfl | hpos
  · simp
  · simp [hi, show ¬ i < 1 by omega, show i - 1 < 7 by omega]

/-- One iteration is one stage of the chain (R74). -/
theorem stage_iteration (w : Work) : (iteration w).stage = nextStage w.stage := by
  have ha : (iteration w).a = (w.a.extractLsb' 0 7 ++ 0#1) ^^^ (if rolc8Out w.high then Config.tap else 0x00#8) := by
    rw [iteration_a, shl8_eq_append]
    cases rolc8Out w.high <;> simp
  rw [Work.stage, ha]
  rfl

theorem stage_iterations (r : Word) (k : Nat) : (iterations k (startWork r)).stage = stageAfter r k := by
  induction k with
  | zero => rfl
  | succ k ih => rw [iterations_succ, stage_iteration, ih, stageAfter]

theorem generate_eq_chain (r : Word) : generate r = chain r := by
  rw [chain, ← stage_iterations]; rfl

/-- Settles O5: the stages carry the working values, and an iteration writes the carry before it reads it. -/
theorem genIsTheEightStageChain : Obligations.GenIsTheEightStageChain := by
  refine ⟨fun s r v hs => ?_, fun r k _ => ?_, fun r c n hn => ?_⟩
  · rw [exec_gen_of_defined hs, generate_eq_chain]; rfl
  · rw [← stage_iterations]; exact ⟨rfl, rfl⟩
  · obtain ⟨m, rfl⟩ := Nat.exists_eq_succ_of_ne_zero hn.ne'
    rw [iterations, iterations, iteration_carry_irrelevant]

/-- Settles O6: `joinBytes` takes an iteration to a Galois step. -/
theorem genIsEightGaloisSteps : Obligations.GenIsEightGaloisSteps := by
  refine ⟨joinBytes_iteration, fun s r v hs => ?_⟩
  rw [exec_gen_of_defined hs, generate_eq_galoisSteps]; rfl

end Sys2Proof.Machine
end

section
/-! Maps of registers that are linear over XOR are determined by their values on the sixteen one-bit registers. -/

namespace Sys2Proof.Machine

/-- Linear over XOR. -/
def XorLinear (f : Word → Word) : Prop := ∀ a b, f (a ^^^ b) = f a ^^^ f b

theorem XorLinear.map_zero {f : Word → Word} (hf : XorLinear f) : f 0#16 = 0#16 := by
  have hself := hf 0#16 0#16
  rwa [BitVec.xor_self, BitVec.xor_self] at hself

/-- Taking the bits away from the top, one by one. -/
theorem XorLinear.eq_of_bits_below {f g : Word → Word} (hf : XorLinear f) (hg : XorLinear g) {n : Nat}
    (hbit : ∀ i < n, f (1#16 <<< i) = g (1#16 <<< i)) {r : Word} (hr : ∀ i, n ≤ i → r.getLsbD i = false) :
    f r = g r := by
  induction n generalizing r with
  | zero =>
    obtain rfl : r = 0#16 := BitVec.eq_of_getLsbD_eq fun i _ => by simpa using hr i i.zero_le
    rw [hf.map_zero, hg.map_zero]
  | succ n ih =>
    have hbelow (i : Nat) (hi : i < n) := hbit i (hi.trans n.lt_succ_self)
    cases htop : r.getLsbD n with
    | false =>
      refine ih hbelow fun i hi => ?_
      rcases hi.eq_or_lt with rfl | hlt
      · exact htop
      · exact hr i hlt
    | true =>
      have hrest : f (r ^^^ 1#16 <<< n) = g (r ^^^ 1#16 <<< n) := by
        refine ih hbelow fun i hi => ?_
        rcases hi.eq_or_lt with rfl | hlt
        · have hwidth : n < 16 := BitVec.lt_of_getLsbD htop
          simp [htop, hwidth]
        · simp [hr i hlt, show i - n ≠ 0 by omega]
      have hsplit : r = (r ^^^ 1#16 <<< n) ^^^ 1#16 <<< n := by
        rw [BitVec.xor_assoc, BitVec.xor_self, BitVec.xor_zero]
      rw [hsplit, hf, hg, hrest, hbit n n.lt_succ_self]

theorem XorLinear.ext {f g : Word → Word} (hf : XorLinear f) (hg : XorLinear g)
    (hbit : ∀ i < 16, f (1#16 <<< i) = g (1#16 <<< i)) (r : Word) : f r = g r :=
  hf.eq_of_bits_below hg hbit fun i hi => BitVec.getLsbD_of_ge r i hi

end Sys2Proof.Machine
end

section
/-! The closed form of `GEN` with the carry-less product (spec/41_generate.md R76), and what two consecutive output
bytes say of `R` (R81). -/

namespace Sys2Proof.Machine

theorem clmulBits_xor (x x' y n : Nat) : clmulBits (x ^^^ x') y n = clmulBits x y n ^^^ clmulBits x' y n := by
  induction n with
  | zero => exact (Nat.xor_self 0).symm
  | succ n ih =>
    simp only [clmulBits, ih, Nat.shiftLeft_xor_distrib]
    cases y.testBit n
    · simp
    · simp only [if_true]; ac_rfl

theorem clmul_xor (x x' y : Byte) : clmul (x ^^^ x') y = clmul x y ^^^ clmul x' y := by
  rw [clmul, BitVec.toNat_xor, clmulBits_xor, BitVec.ofNat_xor]; rfl

/-- The product of `m` bits and a `y` without bits above bit `b` has `m + b` bits. -/
theorem clmulBits_lt {x y m b : Nat} (hx : x < 2 ^ m) (hy : ∀ i, y.testBit i = true → i ≤ b) (n : Nat) :
    clmulBits x y n < 2 ^ (m + b) := by
  induction n with
  | zero => exact Nat.two_pow_pos _
  | succ n ih =>
    refine Nat.xor_lt_two_pow ih ?_
    cases hbit : y.testBit n with
    | false => exact Nat.two_pow_pos _
    | true =>
      calc x <<< n
        _ = x * 2 ^ n := Nat.shiftLeft_eq x n
        _ < 2 ^ m * 2 ^ n := Nat.mul_lt_mul_of_pos_right hx (Nat.two_pow_pos n)
        _ = 2 ^ (m + n) := (pow_add 2 m n).symm
        _ ≤ 2 ^ (m + b) := Nat.pow_le_pow_right two_pos (Nat.add_le_add_left (hy n hbit) m)

/-- The product with the tap mask is at most 13 bits wide (R76). -/
theorem clmul_tap_lt (h : Byte) : (clmul h Config.tap).toNat < 2 ^ 13 := by
  have htap (i : Nat) (hi : Config.tap.toNat.testBit i = true) : i ≤ 5 := by
    have hle : 2 ^ i ≤ 0x2D := Nat.ge_two_pow_of_testBit hi
    exact Nat.le_of_lt_succ ((Nat.pow_lt_pow_iff_right Nat.one_lt_two).1 (hle.trans_lt (by decide : 0x2D < 2 ^ 6)))
  have hlt : clmulBits h.toNat Config.tap.toNat 8 < 2 ^ (8 + 5) := clmulBits_lt h.isLt htap 8
  rw [clmul, BitVec.toNat_ofNat]
  exact (Nat.mod_le _ _).trans_lt hlt

theorem lowByte_xor (r r' : Word) : lowByte (r ^^^ r') = lowByte r ^^^ lowByte r' := BitVec.extractLsb'_xor

theorem highByte_xor (r r' : Word) : highByte (r ^^^ r') = highByte r ^^^ highByte r' := BitVec.extractLsb'_xor

theorem joinBytes_xor_zero (h h' : Byte) :
    joinBytes (h ^^^ h') 0x00#8 = joinBytes h 0x00#8 ^^^ joinBytes h' 0x00#8 := by
  rw [joinBytes, joinBytes, joinBytes, BitVec.xor_append, BitVec.xor_self]

theorem xorLinear_closedForm : XorLinear closedForm := by
  intro r r'
  rw [closedForm, lowByte_xor, highByte_xor, clmul_xor, joinBytes_xor_zero, closedForm, closedForm]
  ac_rfl

theorem generate_eq_closedForm (r : Word) : generate r = closedForm r :=
  XorLinear.ext generate_xor xorLinear_closedForm (by decide) r

/-- The output byte, a function of the old high byte alone (R76). -/
def outputByte (h : Byte) : Byte := lowByte (clmul h Config.tap)

theorem generatedByte_eq_outputByte (r : Word) : generatedByte r = outputByte (highByte r) := by
  rw [← lowByte_generate, generate_eq_closedForm, closedForm, lowByte_xor, lowByte_joinBytes, BitVec.zero_xor,
    outputByte]

theorem outputByte_zero : outputByte 0x00#8 = 0x00#8 := by decide

/-- Behind the product's own high byte, a high byte with zero output would be led to zero by `GEN`. -/
theorem eq_zero_of_outputByte_eq_zero {h : Byte} (hout : outputByte h = 0x00#8) : h = 0x00#8 := by
  have hproduct : joinBytes (highByte (clmul h Config.tap)) 0x00#8 = clmul h Config.tap := by
    rw [← hout, outputByte, joinBytes_halves]
  have hgenerate : generate (joinBytes h (highByte (clmul h Config.tap))) = 0x0000#16 := by
    rw [generate_eq_closedForm, closedForm, lowByte_joinBytes, highByte_joinBytes, hproduct, BitVec.xor_self]
  calc h
    _ = highByte (joinBytes h (highByte (clmul h Config.tap))) := (highByte_joinBytes _ _).symm
    _ = highByte 0x0000#16 := by rw [generate_injective (hgenerate.trans generate_zero.symm)]
    _ = 0x00#8 := rfl

theorem outputByte_injective : Function.Injective outputByte := by
  intro h h' heq
  have hxor : outputByte (h ^^^ h') = 0x00#8 := by
    rw [outputByte, clmul_xor, lowByte_xor, ← outputByte, ← outputByte, heq, BitVec.xor_self]
  exact BitVec.xor_eq_zero_iff.1 (eq_zero_of_outputByte_eq_zero hxor)

theorem outputByte_eq_zero_iff (h : Byte) : outputByte h = 0x00#8 ↔ h = 0x00#8 :=
  ⟨eq_zero_of_outputByte_eq_zero, fun hzero => hzero ▸ outputByte_zero⟩

/-- `high` moves one place up at each rotate, whatever is shifted in (R68). -/
theorem getLsbD_iterations_high (n : Nat) (w : Work) {i : Nat} (hi : i + n < 8) :
    (iterations n w).high.getLsbD (i + n) = w.high.getLsbD i := by
  induction n with
  | zero => rfl
  | succ n ih =>
    rw [iterations_succ, iteration_high, getLsbD_rolc8, if_neg (by omega), BitVec.getLsbD_extractLsb',
      decide_eq_true (by omega), Bool.true_and, ← ih (by omega)]
    congr 1
    omega

/-- The rotate carries are the old high bits, the most significant first (R76). -/
theorem rotateCarry_eq_getLsbD (r : Word) {k : Nat} (hk : k < 8) :
    (rotateStep (shiftStep (iterations k (startWork r)))).carry = r.getLsbD (15 - k) := by
  have hhigh : (iterations k (startWork r)).high.getLsbD (7 - k + k) = (highByte r).getLsbD (7 - k) :=
    getLsbD_iterations_high k (startWork r) (by omega)
  rw [Nat.sub_add_cancel (by omega), getLsbD_highByte, decide_eq_true (by omega), Bool.true_and,
    show 8 + (7 - k) = 15 - k by omega] at hhigh
  exact hhigh

theorem exec_gen_eq_next_iff (s : State) (r r' : Word) (v : Bool) :
    exec .gen { s with regs := .defined r v } = .next { s with regs := .defined r' true } ↔ generate r = r' := by
  rw [exec_gen_of_defined rfl]
  simp [writeRegs]

/-- Settles O7: the closed form by linearity; both bijections from `GEN` losing no register. -/
theorem genHasTheCarrylessProductForm : Obligations.GenHasTheCarrylessProductForm := by
  refine ⟨fun s r v hs => ⟨_, exec_gen_of_defined hs, ?_, ?_, ?_⟩, fun r k hk hk8 => ?_, clmul_tap_lt,
    Finite.injective_iff_bijective.1 outputByte_injective, fun s v r' => ?_⟩
  · rw [generate_eq_closedForm]; rfl
  · rw [randO_of_defined rfl, lowByte_generate, generatedByte_eq_outputByte]; rfl
  · rw [randO_of_defined rfl, lowByte_generate, generatedByte_eq_outputByte, Except.ok.injEq]
    exact outputByte_eq_zero_iff (highByte r)
  · rw [rotateCarry_eq_getLsbD r (by omega)]
    congr 1
    omega
  · simpa only [exec_gen_eq_next_iff] using generate_bijective.existsUnique r'

/-- Settles O13: the second byte is the output of the high byte after the first `GEN`. -/
theorem twoOutputsDetermineTheState : Obligations.TwoOutputsDetermineTheState := by
  rintro s t u r v o o' hs ht ho hu ho'
  obtain rfl := eq_of_exec_gen hs ht
  obtain rfl := eq_of_exec_gen (writeRegs_regs _ _ _) hu
  rw [randO_of_defined (writeRegs_regs _ _ _), Except.ok.injEq] at ho ho'
  have hsecond : outputByte (highByte (generate r)) = o' := by
    rw [← ho', lowByte_generate, generatedByte_eq_outputByte]
  refine ⟨highByte (generate r), ?_, hsecond, fun h' hh' => outputByte_injective (Eq.trans hh' hsecond.symm)⟩
  rw [writeRegs_regs, ← ho]
  exact congrArg (Registers.defined · true) (joinBytes_halves _).symm

end Sys2Proof.Machine
end

section
/-! The period of the Galois step (spec/41_generate.md R78). A register is a polynomial over two elements and the step
multiplies it by `x`, modulo `x^16 + x^5 + x^3 + x^2 + 1`. The step's powers are computed with the product of such
polynomials; where the factor `x^m + 1` has an inverse, `m` steps fix zero alone. Since 65,535 is 3 · 5 · 17 · 257,
four such factors are enough. -/

namespace Sys2Proof.Machine

/-- The XOR of `step^i(s)` over every `i < n` with `y[i] = 1`. -/
def galoisMulBits : Nat → Word → Word → Word
  | 0, _, _ => 0#16
  | n + 1, y, s => (if y.getLsbD 0 then s else 0#16) ^^^ galoisMulBits n (y >>> 1) (galoisStep s)

/-- The product of two registers as polynomials. -/
def galoisMul (y s : Word) : Word := galoisMulBits 16 y s

theorem xorLinear_galoisMulBits (n : Nat) (y : Word) : XorLinear (galoisMulBits n y) := by
  induction n generalizing y with
  | zero => exact fun a b => (BitVec.xor_self).symm
  | succ n ih =>
    intro a b
    rw [galoisMulBits, galoisStep_xor, ih, galoisMulBits, galoisMulBits]
    split
    · ac_rfl
    · simp only [BitVec.zero_xor]

theorem ite_xor_zero (b b' : Bool) (s : Word) :
    (if b ^^ b' then s else 0#16) = (if b then s else 0#16) ^^^ (if b' then s else 0#16) := by
  cases b <;> cases b' <;> simp

theorem xorLinear_galoisMulBits_left (n : Nat) (s : Word) : XorLinear (galoisMulBits n · s) := by
  induction n generalizing s with
  | zero => exact fun a b => (BitVec.xor_self).symm
  | succ n ih =>
    intro a b
    have hrest := ih (galoisStep s) (a >>> 1) (b >>> 1)
    simp only [galoisMulBits, BitVec.ushiftRight_xor_distrib, BitVec.getLsbD_xor, ite_xor_zero] at hrest ⊢
    rw [hrest]
    ac_rfl

/-- What is linear and commutes with the step commutes with the product. -/
theorem XorLinear.map_galoisMulBits {f : Word → Word} (hf : XorLinear f)
    (hstep : ∀ s, f (galoisStep s) = galoisStep (f s)) (n : Nat) (y s : Word) :
    f (galoisMulBits n y s) = galoisMulBits n y (f s) := by
  induction n generalizing y s with
  | zero => exact hf.map_zero
  | succ n ih =>
    rw [galoisMulBits, hf, ih, hstep, galoisMulBits]
    split
    · rfl
    · rw [hf.map_zero]

theorem galoisStep_galoisMul (y s : Word) : galoisStep (galoisMul y s) = galoisMul y (galoisStep s) :=
  XorLinear.map_galoisMulBits galoisStep_xor (fun _ => rfl) 16 y s

theorem galoisMul_left_comm (y z s : Word) : galoisMul y (galoisMul z s) = galoisMul z (galoisMul y s) :=
  (xorLinear_galoisMulBits 16 y).map_galoisMulBits (fun s => (galoisStep_galoisMul y s).symm) 16 z s

theorem galoisMul_one (y : Word) : galoisMul y 1#16 = y :=
  XorLinear.ext (g := id) (xorLinear_galoisMulBits_left 16 1#16) (fun _ _ => rfl) (by decide) y

theorem galoisSteps_galoisStep (n : Nat) (s : Word) : galoisSteps n (galoisStep s) = galoisStep (galoisSteps n s) :=
  galoisSteps_add n 1 s

/-- `n` steps multiply by the polynomial that `n` steps make of 1. -/
theorem galoisMul_galoisSteps_one (y : Word) (n : Nat) : galoisMul y (galoisSteps n 1#16) = galoisSteps n y := by
  have hcomm : galoisSteps n (galoisMul y 1#16) = galoisMul y (galoisSteps n 1#16) :=
    XorLinear.map_galoisMulBits (galoisSteps_xor n) (galoisSteps_galoisStep n) 16 y 1#16
  rw [← hcomm, galoisMul_one]

theorem galoisSteps_add_one (m n : Nat) :
    galoisSteps (m + n) 1#16 = galoisMul (galoisSteps m 1#16) (galoisSteps n 1#16) := by
  rw [galoisMul_galoisSteps_one, galoisSteps_add]

theorem galoisSteps_mul_one (m n : Nat) :
    galoisSteps (m * n) 1#16 = (galoisMul (galoisSteps m 1#16))^[n] 1#16 := by
  induction n with
  | zero => rfl
  | succ n ih => rw [Function.iterate_succ_apply', ← ih, ← galoisSteps_add_one, Nat.mul_succ, Nat.add_comm]

/-- `m` steps fix zero alone where `x^m + 1` has an inverse `u`. -/
theorem eq_zero_of_galoisSteps_eq {m : Nat} {u r : Word} (hu : galoisMul u (galoisSteps m 1#16 ^^^ 1#16) = 1#16)
    (hfix : galoisSteps m r = r) : r = 0#16 := by
  have hproduct : galoisMul r (galoisSteps m 1#16 ^^^ 1#16) = 0#16 := by
    calc galoisMul r (galoisSteps m 1#16 ^^^ 1#16)
      _ = galoisMul r (galoisSteps m 1#16) ^^^ galoisMul r 1#16 := xorLinear_galoisMulBits 16 r _ _
      _ = 0#16 := by rw [galoisMul_galoisSteps_one, galoisMul_one, hfix, BitVec.xor_self]
  calc r
    _ = galoisMul r (galoisMul u (galoisSteps m 1#16 ^^^ 1#16)) := by rw [hu, galoisMul_one]
    _ = galoisMul u 0#16 := by rw [galoisMul_left_comm, hproduct]
    _ = 0#16 := (xorLinear_galoisMulBits 16 u).map_zero

theorem galoisSteps_255_one : galoisSteps 255 1#16 = 0x00C5#16 := by
  have h17 : galoisSteps 17 1#16 = 0x005A#16 := by decide
  have h51 : galoisSteps 51 1#16 = 0xED71#16 := by
    rw [show 51 = 17 * 3 from rfl, galoisSteps_mul_one, h17]; decide
  rw [show 255 = 51 * 5 from rfl, galoisSteps_mul_one, h51]; decide

theorem galoisSteps_257_one : galoisSteps 257 1#16 = 0x0314#16 := by
  rw [show 257 = 255 + 2 from rfl, galoisSteps_add_one, galoisSteps_255_one]; decide

theorem galoisSteps_3855_one : galoisSteps 3855 1#16 = 0xACB4#16 := by
  have h771 : galoisSteps 771 1#16 = 0x85EE#16 := by
    rw [show 771 = 257 * 3 from rfl, galoisSteps_mul_one, galoisSteps_257_one]; decide
  rw [show 3855 = 771 * 5 from rfl, galoisSteps_mul_one, h771]; decide

theorem galoisSteps_4369_one : galoisSteps 4369 1#16 = 0x3C0F#16 := by
  rw [show 4369 = 3855 + 257 * 2 from rfl, galoisSteps_add_one, galoisSteps_mul_one, galoisSteps_3855_one,
    galoisSteps_257_one]
  decide

theorem galoisSteps_13107_one : galoisSteps 13107 1#16 = 0x86FA#16 := by
  rw [show 13107 = 4369 * 3 from rfl, galoisSteps_mul_one, galoisSteps_4369_one]; decide

theorem galoisSteps_21845_one : galoisSteps 21845 1#16 = 0xACCA#16 := by
  rw [show 21845 = 4369 * 5 from rfl, galoisSteps_mul_one, galoisSteps_4369_one]; decide

theorem galoisSteps_65535_one : galoisSteps 65535 1#16 = 1#16 := by
  rw [show 65535 = 21845 * 3 from rfl, galoisSteps_mul_one, galoisSteps_21845_one]; decide

theorem galoisSteps_65535 (r : Word) : galoisSteps 65535 r = r := by
  rw [← galoisMul_galoisSteps_one, galoisSteps_65535_one, galoisMul_one]

/-- Leaving out one prime factor of 65,535 leaves zero alone fixed. -/
theorem eq_zero_of_galoisSteps_div_prime_eq {q : Nat} (hq : q.Prime) (hdvd : q ∣ 65535) {r : Word}
    (hfix : galoisSteps (65535 / q) r = r) : r = 0#16 := by
  have hcases : q = 3 ∨ q = 5 ∨ q = 17 ∨ q = 257 := by
    rw [show 65535 = 3 * 5 * 17 * 257 from rfl, hq.dvd_mul, hq.dvd_mul, hq.dvd_mul,
      Nat.prime_dvd_prime_iff_eq hq (by norm_num), Nat.prime_dvd_prime_iff_eq hq (by norm_num),
      Nat.prime_dvd_prime_iff_eq hq (by norm_num), Nat.prime_dvd_prime_iff_eq hq (by norm_num)] at hdvd
    omega
  rcases hcases with rfl | rfl | rfl | rfl
  · exact eq_zero_of_galoisSteps_eq (u := 0xACCA#16) (by rw [galoisSteps_21845_one]; decide) hfix
  · exact eq_zero_of_galoisSteps_eq (u := 0x3C0F#16) (by rw [galoisSteps_13107_one]; decide) hfix
  · exact eq_zero_of_galoisSteps_eq (u := 0x7F77#16) (by rw [galoisSteps_3855_one]; decide) hfix
  · exact eq_zero_of_galoisSteps_eq (u := 0xAA70#16) (by rw [galoisSteps_255_one]; decide) hfix

end Sys2Proof.Machine
end

section
/-! The cycle of the nonzero registers under the Galois step and under `GEN` (spec/41_generate.md R78, R79). -/

namespace Sys2Proof.Machine

/-- A divisor of `n` that stays one for no cofactor of a prime is `n` itself. -/
theorem eq_of_dvd_of_not_dvd_div_prime {d n : Nat} (hn : 0 < n) (hd : d ∣ n)
    (hprime : ∀ q, q.Prime → q ∣ n → ¬ d ∣ n / q) : d = n := by
  obtain ⟨k, rfl⟩ := hd
  by_contra hne
  have hk : k ≠ 1 := by rintro rfl; exact hne (Nat.mul_one d).symm
  have hq : k.minFac ∣ d * k := k.minFac_dvd.mul_left d
  refine hprime k.minFac (Nat.minFac_prime hk) hq ?_
  rw [Nat.mul_div_assoc d k.minFac_dvd]
  exact Nat.dvd_mul_right d _

theorem minimalPeriod_galoisStep {r : Word} (hr : r ≠ 0#16) : Function.minimalPeriod galoisStep r = 65535 := by
  have hperiodic (n : Nat) : Function.minimalPeriod galoisStep r ∣ n ↔ galoisSteps n r = r := by
    rw [← Function.isPeriodicPt_iff_minimalPeriod_dvd, galoisSteps_eq_iterate]; rfl
  refine eq_of_dvd_of_not_dvd_div_prime (by norm_num) ((hperiodic 65535).2 (galoisSteps_65535 r)) fun q hq hdvd h => ?_
  exact hr (eq_zero_of_galoisSteps_div_prime_eq hq hdvd ((hperiodic _).1 h))

/-- A `GEN` is eight steps, and 8 and 65,535 have no common factor. -/
theorem minimalPeriod_generate {r : Word} (hr : r ≠ 0#16) : Function.minimalPeriod generate r = 65535 := by
  rw [generate_eq_iterate, Function.minimalPeriod_iterate_eq_div_gcd (by norm_num), minimalPeriod_galoisStep hr]
  rfl

theorem iterate_generate_65535 {r : Word} (hr : r ≠ 0#16) : generate^[65535] r = r := by
  rw [← minimalPeriod_generate hr, Function.iterate_minimalPeriod]

theorem iterate_generate_ne {r : Word} (hr : r ≠ 0#16) {n : Nat} (hn : 0 < n) (hlt : n < 65535) :
    generate^[n] r ≠ r :=
  Function.not_isPeriodicPt_of_pos_of_lt_minimalPeriod hn.ne' (hlt.trans_eq (minimalPeriod_generate hr).symm)

/-- Settles O10: the least period divides 65,535 and none of its cofactors of a prime. -/
theorem galoisStepHasMaximalPeriod : Obligations.GaloisStepHasMaximalPeriod := by
  refine ⟨fun r hr => ⟨galoisSteps_65535 r, fun n hn hlt => ?_⟩, fun s t r v hs hr ht => ?_⟩
  · rw [galoisSteps_eq_iterate]
    exact Function.not_isPeriodicPt_of_pos_of_lt_minimalPeriod hn.ne'
      (hlt.trans_eq (minimalPeriod_galoisStep hr).symm)
  · obtain rfl := eq_of_exec_gen hs ht
    exact ⟨generate r, rfl, generate_ne_zero hr⟩

theorem iterate_generate_ne_zero {r : Word} (hr : r ≠ 0#16) (n : Nat) : generate^[n] r ≠ 0#16 := by
  induction n with
  | zero => exact hr
  | succ n ih => rw [Function.iterate_succ_apply']; exact generate_ne_zero ih

theorem iterate_generate_injOn {r : Word} (hr : r ≠ 0#16) :
    Set.InjOn (fun n => generate^[n] r) (Finset.range 65535) := by
  have hinj := Function.iterate_injOn_Iio_minimalPeriod (f := generate) (x := r)
  rwa [minimalPeriod_generate hr, ← Finset.coe_range] at hinj

theorem card_univ_bitVec (n : Nat) : (Finset.univ : Finset (BitVec n)).card = 2 ^ n := by
  rw [Finset.card_univ, ← FinEnum.card_eq_fintypeCard, FinEnum.card_bitVec]

/-- 65,535 distinct nonzero values are all there are. -/
theorem image_iterate_generate {r : Word} (hr : r ≠ 0#16) :
    (Finset.range 65535).image (fun n => generate^[n] r) = Finset.univ.erase 0#16 := by
  apply Finset.eq_of_subset_of_card_le
  · intro x hx
    obtain ⟨n, -, rfl⟩ := Finset.mem_image.1 hx
    exact Finset.mem_erase.2 ⟨iterate_generate_ne_zero hr n, Finset.mem_univ _⟩
  · rw [Finset.card_image_of_injOn (iterate_generate_injOn hr), Finset.card_erase_of_mem (Finset.mem_univ _),
      Finset.card_range, card_univ_bitVec]
    norm_num

theorem exists_iterate_generate_eq {r r' : Word} (hr : r ≠ 0#16) (hr' : r' ≠ 0#16) :
    ∃ n < 65535, generate^[n] r = r' := by
  have hmem : r' ∈ (Finset.range 65535).image (fun n => generate^[n] r) := by
    rw [image_iterate_generate hr]
    exact Finset.mem_erase.2 ⟨hr', Finset.mem_univ _⟩
  simpa using hmem

/-- `state_o` after any number of `GEN`s. -/
theorem stateO_of_execTimes_gen {s : State} {r : Word} {v : Bool} (hs : s.regs = .defined r v) (n : Nat) :
    ∃ t, execTimes .gen n s = .next t ∧ stateO t = .ok (generate^[n] r) := by
  cases n with
  | zero => exact ⟨s, rfl, stateO_of_defined hs⟩
  | succ n => exact ⟨_, execTimes_gen hs n, rfl⟩

/-- Settles O11: the values of `R` over one least period are distinct, so they are all the nonzero ones. -/
theorem nonzeroStatesFormOneCycle : Obligations.NonzeroStatesFormOneCycle := by
  refine fun s r v hs hr => ⟨⟨_, execTimes_gen hs 65534, ?_⟩, fun n t hn hlt ht hregs => ?_, fun r' hr' => ?_,
    ⟨_, _, execTimes_gen hs 0, execTimes_gen hs 65535, ?_⟩⟩
  · rw [writeRegs_regs, iterate_generate_65535 hr]
  · obtain ⟨t', ht', hstate⟩ := stateO_of_execTimes_gen hs n
    obtain rfl : t = t' := by simpa [ht] using ht'
    rw [stateO_of_defined hregs, Except.ok.injEq] at hstate
    exact iterate_generate_ne hr hn hlt hstate.symm
  · obtain ⟨n, hn, rfl⟩ := exists_iterate_generate_eq hr hr'
    obtain ⟨t, ht, hstate⟩ := stateO_of_execTimes_gen hs n
    exact ⟨n, t, hn, ht, hstate⟩
  · rw [randO_of_defined (writeRegs_regs _ _ _), randO_of_defined (writeRegs_regs _ _ _),
      Function.iterate_succ_apply' generate 65535, iterate_generate_65535 hr, Function.iterate_one]

end Sys2Proof.Machine
end

section
/-! The stream of output bytes (spec/41_generate.md R80): its period is the cycle's, because two consecutive bytes
determine `R`, and a byte is shown as often as a nonzero `R` ends in it. -/

namespace Sys2Proof.Machine

theorem eq_of_lowByte_eq_of_generatedByte_eq {r r' : Word} (hlow : lowByte r = lowByte r')
    (hnext : generatedByte r = generatedByte r') : r = r' := by
  rw [generatedByte_eq_outputByte, generatedByte_eq_outputByte] at hnext
  rw [← joinBytes_halves r, ← joinBytes_halves r', hlow, outputByte_injective hnext]

/-- A shift of the stream onto itself is a return of `R`. -/
theorem iterate_generate_eq_of_stream_eq {r : Word} {k : Nat}
    (h : ∀ n, lowByte (generate^[n + k] r) = lowByte (generate^[n] r)) : generate^[k] r = r := by
  refine eq_of_lowByte_eq_of_generatedByte_eq (by simpa using h 0) ?_
  have hone := h 1
  rwa [Nat.add_comm, Function.iterate_succ_apply', Function.iterate_one, lowByte_generate, lowByte_generate] at hone

theorem filter_lowByte_eq_image (x : Byte) :
    Finset.univ.filter (fun r : Word => lowByte r = x) = Finset.univ.image (fun h : Byte => joinBytes h x) := by
  ext r
  simp only [Finset.mem_filter, Finset.mem_image, Finset.mem_univ, true_and]
  constructor
  · rintro rfl; exact ⟨highByte r, joinBytes_halves r⟩
  · rintro ⟨h, rfl⟩; exact lowByte_joinBytes h x

/-- 256 registers end in a given byte, and zero is one of those that end in `0x00`. -/
theorem card_nonzero_of_lowByte (x : Byte) :
    ((Finset.univ.erase 0#16).filter (fun r : Word => lowByte r = x)).card = if x = 0x00#8 then 255 else 256 := by
  have hinj : Function.Injective (fun h : Byte => joinBytes h x) :=
    Function.LeftInverse.injective (g := highByte) fun h => highByte_joinBytes h x
  have hall : (Finset.univ.filter (fun r : Word => lowByte r = x)).card = 256 := by
    rw [filter_lowByte_eq_image, Finset.card_image_of_injective _ hinj, card_univ_bitVec]
    norm_num
  have hzero : 0#16 ∈ Finset.univ.filter (fun r : Word => lowByte r = x) ↔ x = 0x00#8 := by
    rw [Finset.mem_filter, eq_comm]
    exact and_iff_right (Finset.mem_univ _)
  rw [Finset.filter_erase, Finset.card_erase_eq_ite, hall]
  simp only [hzero]

theorem length_filter_range (b : Nat → Byte) (x : Byte) (n : Nat) :
    ((List.range n).filter (fun k => b k == x)).length = ((Finset.range n).filter (fun k => b k = x)).card := rfl

/-- In one cycle `R` ends in a byte as often as a nonzero register does. -/
theorem count_lowByte_iterate_generate {r : Word} (hr : r ≠ 0#16) (x : Byte) :
    ((List.range 65535).filter (fun n => lowByte (generate^[n] r) == x)).length = if x = 0x00#8 then 255 else 256 := by
  have hinj := (iterate_generate_injOn hr).mono (Finset.coe_subset.2 (Finset.filter_subset
    (fun n => lowByte (generate^[n] r) = x) (Finset.range 65535)))
  rw [length_filter_range, ← Finset.card_image_of_injOn hinj, ← card_nonzero_of_lowByte x,
    ← image_iterate_generate hr, Finset.filter_image]

/-- Settles O12: from the register after the first `GEN`, the stream shows the low bytes of the cycle. -/
theorem outputStreamHasTheFullPeriod : Obligations.OutputStreamHasTheFullPeriod := by
  intro s r v b hs hr hstream
  have hfirst : generate r ≠ 0#16 := generate_ne_zero hr
  obtain rfl : b = fun n => lowByte (generate^[n] (generate r)) := by
    funext n
    obtain ⟨t, ht, hbyte⟩ := hstream n
    obtain rfl : writeRegs (generate^[n + 1] r) true s = t := by simpa [execTimes_gen hs] using ht
    simpa [randO_of_defined (writeRegs_regs _ _ _)] using hbyte.symm
  refine ⟨fun n => ?_, fun k hk hlt => ?_, count_lowByte_iterate_generate hfirst⟩
  · simp only [Function.iterate_add_apply, iterate_generate_65535 hfirst]
  · by_contra! hperiod
    exact iterate_generate_ne hfirst hk hlt (iterate_generate_eq_of_stream_eq hperiod)

end Sys2Proof.Machine
end

section
/-! `GEN`'s words, its corner cases and its fault, and that no command fails otherwise (spec/41_generate.md R65, R77,
R82, R83). -/

namespace Sys2Proof.Machine

/-- Settles O9: zero is a fixed point of `generate`. -/
theorem zeroIsAFixedPointOfGen : Obligations.ZeroIsAFixedPointOfGen :=
  fun _ _ n hs => ⟨_, execTimes_gen_zero hs n, rfl, rfl⟩

/-- Settles O4: the row of `op = 01`, and `generate` run on the six values. -/
theorem genEncodingFaultAndCornerCases : Obligations.GenEncodingFaultAndCornerCases := by
  refine ⟨fun w hw => decode_of_row (cmd := 0b01#2) hw, fun s => exec_gen_of_uninitialised, fun s v c hc hs => ?_⟩
  have hvalue : generate c.1 = c.2 := by
    simp only [List.mem_cons, List.not_mem_nil, or_false] at hc
    rcases hc with rfl | rfl | rfl | rfl | rfl | rfl <;> decide
  rw [exec_gen_of_defined hs, hvalue]; rfl

theorem clearValid_eq (s : State) : ∃ rv, clearValid s = { s with regs := rv } := by
  cases hs : s.regs with
  | uninitialised => exact ⟨s.regs, clearValid_of_uninitialised hs⟩
  | defined r v => exact ⟨.defined r false, clearValid_of_defined hs⟩

/-- Settles O14: each command is one write of the registers; a byte is below 256. -/
theorem everyCommandCompletes : Obligations.EveryCommandCompletes := by
  refine ⟨fun s => ?_, fun s seed => ⟨_, exec_init seed s⟩, fun s hs => ?_⟩
  · obtain ⟨rv, hrv⟩ := clearValid_eq s
    exact ⟨rv, by rw [exec_nop, hrv]⟩
  · obtain ⟨r, v, hr⟩ := (initialised_iff s).1 hs
    exact ⟨_, _, exec_gen_of_defined hr, rfl, rfl, rfl, Nat.le_of_lt_succ (BitVec.isLt _)⟩

end Sys2Proof.Machine
end

section
/-! What one edge does, read off its pins in the order of spec/60_exceptions.md R91, and the exact conditions under
which it, or a read of a port, is refused or faults (R88, R90; spec/10_state.md R29). -/

namespace Sys2Proof

open Machine

theorem decodePins_of_unknown_cmd {e : Edge} (hcmd : busValue e.cmd = none) : decodePins e = .error .unknownInput := by
  rw [decodePins, hcmd]

theorem decodePins_of_cmd {e : Edge} {cmd : BitVec 2} (hcmd : busValue e.cmd = some cmd) :
    decodePins e = decodeFields cmd (busValue e.seed) := by
  rw [decodePins, hcmd]

theorem decodePins_of_init_unknown_seed {e : Edge} (hcmd : busValue e.cmd = some 0b10#2)
    (hseed : busValue e.seed = none) : decodePins e = .error .unknownInput := by
  rw [decodePins_of_cmd hcmd, hseed, decodeFields_init_unknown]

/-- Only the pins of the `GEN` row carry `GEN` (R47). -/
theorem decodePins_eq_gen_iff (e : Edge) : decodePins e = .ok .gen ↔ busValue e.cmd = some 0b01#2 := by
  constructor
  · intro h
    rcases decodePins_ok_cases h with ⟨-, hi⟩ | ⟨hcmd, -⟩ | ⟨-, seed, -, hi⟩
    · cases hi
    · exact hcmd
    · cases hi
  · intro hcmd
    rw [decodePins_of_cmd hcmd, decodeFields_gen]

/-- The pins that carry no command, and why: the rows of R89 and R90. -/
theorem decodePins_error_iff (e : Edge) (why : DecodeError) :
    decodePins e = .error why ↔
      (why = .unknownInput ∧
        (busValue e.cmd = none ∨ (busValue e.cmd = some 0b10#2 ∧ busValue e.seed = none))) ∨
      (why = .reservedCommand ∧ busValue e.cmd = some 0b11#2) := by
  cases hcmd : busValue e.cmd with
  | none => simp [decodePins_of_unknown_cmd hcmd, eq_comm]
  | some cmd =>
    rw [decodePins_of_cmd hcmd]
    rcases op_cases cmd with rfl | rfl | rfl | rfl
    · simp
    · simp
    · cases hseed : busValue e.seed <;> simp [eq_comm]
    · simp [eq_comm]

end Sys2Proof

namespace Sys2Proof.Machine

theorem acceptEdge_of_unknown_rst {p : Word} {e : Edge} {s : State} (hrst : levelBit e.rst = none) :
    acceptEdge p e s = .refused .unknownInput := by
  rw [acceptEdge, hrst]

theorem acceptEdge_of_reset {p : Word} {e : Edge} {s : State} (hrst : levelBit e.rst = some true) :
    acceptEdge p e s = .next (applyReset p s) := by
  rw [acceptEdge, hrst]

theorem acceptEdge_of_decodePins_error {p : Word} {e : Edge} {s : State} {why : DecodeError}
    (hrst : levelBit e.rst = some false) (hd : decodePins e = .error why) :
    acceptEdge p e s = .refused (refusalOf why) := by
  rw [acceptEdge, hrst, hd]

/-- An edge is refused for an unknown `rst_i`, or without reset for pins that carry no command. -/
theorem acceptEdge_refused_iff_decodePins (p : Word) (e : Edge) (s : State) (why : Refusal) :
    acceptEdge p e s = .refused why ↔
      (why = .unknownInput ∧ levelBit e.rst = none) ∨
      (levelBit e.rst = some false ∧ ∃ d, decodePins e = .error d ∧ why = refusalOf d) := by
  cases hrst : levelBit e.rst with
  | none => simp [acceptEdge_of_unknown_rst hrst, eq_comm]
  | some b =>
    cases b with
    | true => simp [acceptEdge_of_reset hrst]
    | false =>
      cases hd : decodePins e with
      | error d => simp [acceptEdge_of_decodePins_error hrst hd, eq_comm]
      | ok i => simp [acceptEdge_of_decodePins hrst hd, exec_ne_refused]

/-- The refusals of an edge by its pins (R89, R90). -/
theorem acceptEdge_refused_iff (p : Word) (e : Edge) (s : State) (why : Refusal) :
    acceptEdge p e s = .refused why ↔
      (why = .unknownInput ∧ levelBit e.rst = none) ∨
      (why = .unknownInput ∧ levelBit e.rst = some false ∧
        (busValue e.cmd = none ∨ (busValue e.cmd = some 0b10#2 ∧ busValue e.seed = none))) ∨
      (why = .reservedCommand ∧ levelBit e.rst = some false ∧ busValue e.cmd = some 0b11#2) := by
  rw [acceptEdge_refused_iff_decodePins]
  refine or_congr_right ⟨?_, ?_⟩
  · rintro ⟨hrst, d, hd, rfl⟩
    rcases (decodePins_error_iff e d).1 hd with ⟨rfl, hpins⟩ | ⟨rfl, hcmd⟩
    · exact .inl ⟨rfl, hrst, hpins⟩
    · exact .inr ⟨rfl, hrst, hcmd⟩
  · rintro (⟨rfl, hrst, hpins⟩ | ⟨rfl, hrst, hcmd⟩)
    · exact ⟨hrst, .unknownInput, (decodePins_error_iff e _).2 (.inl ⟨rfl, hpins⟩), rfl⟩
    · exact ⟨hrst, .reservedCommand, (decodePins_error_iff e _).2 (.inr ⟨rfl, hcmd⟩), rfl⟩

/-- The only command that faults is `GEN`, where no value is held (R29). -/
theorem exec_fault_iff (i : Instr) (s : State) (why : Fault) :
    exec i s = .fault why ↔ why = .uninitialisedState ∧ s.regs = .uninitialised ∧ i = .gen := by
  cases i with
  | nop => simp [exec_nop]
  | init seed => simp [exec_init]
  | gen =>
    cases hs : s.regs with
    | uninitialised => simp [exec_gen_of_uninitialised hs]
    | defined r v => simp [exec_gen_of_defined hs]

/-- The only edge that faults is a `GEN` without reset, where no value is held. -/
theorem acceptEdge_fault_iff (p : Word) (e : Edge) (s : State) (why : Fault) :
    acceptEdge p e s = .fault why ↔
      why = .uninitialisedState ∧ s.regs = .uninitialised ∧
        levelBit e.rst = some false ∧ busValue e.cmd = some 0b01#2 := by
  rw [← decodePins_eq_gen_iff]
  cases hrst : levelBit e.rst with
  | none => simp [acceptEdge_of_unknown_rst hrst]
  | some b =>
    cases b with
    | true => simp [acceptEdge_of_reset hrst]
    | false =>
      cases hd : decodePins e with
      | error d => simp [acceptEdge_of_decodePins_error hrst hd]
      | ok i => simp [acceptEdge_of_decodePins hrst hd, exec_fault_iff]

/-- Reads of the ports fault exactly where no value is held (spec/10_state.md R29). -/
theorem randO_eq_error_iff (s : State) (why : Fault) :
    randO s = .error why ↔ s.regs = .uninitialised ∧ why = .uninitialisedState := by
  cases hs : s.regs <;> simp [randO, hs, eq_comm]

theorem randValidO_eq_error_iff (s : State) (why : Fault) :
    randValidO s = .error why ↔ s.regs = .uninitialised ∧ why = .uninitialisedState := by
  cases hs : s.regs <;> simp [randValidO, hs, eq_comm]

theorem stateO_eq_error_iff (s : State) (why : Fault) :
    stateO s = .error why ↔ s.regs = .uninitialised ∧ why = .uninitialisedState := by
  cases hs : s.regs <;> simp [stateO, hs, eq_comm]

/-- A step stops only by the edge at the head of the list, with that edge's outcome. -/
theorem stepWith_eq_stop_iff {o : Host.Outcome State Fault Refusal} (ho : ∀ t, o ≠ .next t) (p : Word) (s : State) :
    stepWith p s = o ↔ ∃ e rest, s.input = e :: rest ∧ acceptEdge p e (takeEdge rest s) = o := by
  cases hs : s.input with
  | nil => simp [stepWith_nil hs, (ho s).symm]
  | cons e rest => simp [stepWith_cons hs]

end Sys2Proof.Machine
end

section
/-! A run taken in two parts (spec/60_exceptions.md R88): the steps after the first part do nothing once it has
stopped. -/

namespace Sys2Proof.Machine

theorem runSteps_succ_eq_andThen (p : Word) (k : Nat) (s : State) :
    runSteps p (k + 1) s = andThen (stepWith p s) (runSteps p k) := by
  rw [runSteps_succ]
  cases stepWith p s <;> rfl

theorem runSteps_add (p : Word) (k m : Nat) (s : State) :
    runSteps p (k + m) s = andThen (runSteps p k s) (runSteps p m) := by
  induction k generalizing s with
  | zero => rw [Nat.zero_add, runSteps_zero, andThen_next]
  | succ k ih =>
    rw [Nat.succ_add, runSteps_succ_eq_andThen, runSteps_succ_eq_andThen, andThen_assoc]
    exact congrArg (andThen (stepWith p s)) (funext ih)

end Sys2Proof.Machine
end

section
/-! The outcomes of one edge and the stops of a run (spec/60_exceptions.md R88, R90, R91). -/

namespace Sys2Proof.Machine

/-- Settles O25: the step is the edge's outcome, one equation for each item of R91. -/
theorem edgeOutcomesInOrder : Obligations.EdgeOutcomesInOrder := by
  intro p s e rest hs
  rw [stepWith_cons hs]
  refine ⟨acceptEdge_of_unknown_rst, acceptEdge_of_reset, fun hrst hcmd => ?unknownCmd,
    fun hrst hcmd hseed => ?unknownSeed, acceptEdge_of_reserved, fun hrst hcmd hr => ?genFault,
    fun hrst hcmd r v hr => ?gen, fun hrst hcmd => ?nop, fun hrst hcmd seed hseed => ?init⟩
  case unknownCmd => exact acceptEdge_of_decodePins_error hrst (decodePins_of_unknown_cmd hcmd)
  case unknownSeed => exact acceptEdge_of_decodePins_error hrst (decodePins_of_init_unknown_seed hcmd hseed)
  case genFault => exact (acceptEdge_fault_iff p e _ _).2 ⟨rfl, hr, hrst, hcmd⟩
  case gen =>
    rw [acceptEdge_of_decodePins hrst ((decodePins_eq_gen_iff e).2 hcmd)]
    exact exec_gen_of_defined (s := takeEdge rest s) hr
  case nop =>
    have hedge : acceptEdge p e (takeEdge rest s) = .next (clearValid (takeEdge rest s)) := by
      rw [acceptEdge_of_decodePins hrst (decodePins_of_cmd hcmd), exec_nop]
    exact ⟨_, hedge, clearValid_input _, clearValid_pos _, stateO_clearValid _,
      fun r v hr => by rw [clearValid_of_defined (s := takeEdge rest s) hr, writeRegs_regs]⟩
  case init => exact acceptEdge_of_decodePins hrst (decodePins_of_init hcmd hseed)

/-- Settles O26: the refusals of the edge at the head of the list; pins other than `INIT`'s decode without `seed_i`. -/
theorem unknownInputsAreRefused : Obligations.UnknownInputsAreRefused := by
  refine ⟨fun p s e rest hs => ?_, fun p s e seed' hcmd => ?_⟩
  · rw [stepWith_cons hs, acceptEdge_refused_iff]
    simp
  · rw [acceptEdge, acceptEdge, decodePins_seed_ignored seed' hcmd]

/-- Settles O28: the stops of an edge are the stops of a step, and a run goes on only from a next state. -/
theorem stopsAreExactlyTheThreeOutcomes : Obligations.StopsAreExactlyTheThreeOutcomes := by
  refine ⟨fun p s why => ?fault, fun p s why => ?refused,
    fun s why => ⟨randO_eq_error_iff s why, randValidO_eq_error_iff s why, stateO_eq_error_iff s why⟩,
    fun p k m s why h => by rw [runSteps_add, h, andThen_fault],
    fun p k m s why h => by rw [runSteps_add, h, andThen_refused]⟩
  case fault =>
    simp only [stepWith_eq_stop_iff (o := .fault why) (fun t => nofun), acceptEdge_fault_iff, takeEdge_regs]
    constructor
    · rintro ⟨e, rest, hs, hwhy, hr, hpins⟩
      exact ⟨hwhy, hr, e, rest, hs, hpins⟩
    · rintro ⟨hwhy, hr, e, rest, hs, hpins⟩
      exact ⟨e, rest, hs, hwhy, hr, hpins⟩
  case refused => simp only [stepWith_eq_stop_iff (o := .refused why) (fun t => nofun), acceptEdge_refused_iff]

end Sys2Proof.Machine
end

section
/-! The observation of a run against its steps (spec/70_reset_and_hazards.md R106): from held registers every edge
that is accepted adds the pair the ports then show, and the mark is the run's own outcome (spec/60_exceptions.md
R88). -/

namespace Sys2Proof.Machine

/-- The mark an outcome puts on a run. -/
def outcomeMark : Host.Outcome State Fault Refusal → Option Mark
  | .next _ => none
  | .fault why => some (.fault why)
  | .refused why => some (.refusal why)

@[simp] theorem Observation.prepend_mark (out : Byte × Bool) (o : Observation) : (o.prepend out).mark = o.mark := rfl
@[simp] theorem Observation.prepend_finalState (out : Byte × Bool) (o : Observation) :
    (o.prepend out).finalState = o.finalState := rfl
@[simp] theorem Observation.prepend_outputs (out : Byte × Bool) (o : Observation) :
    (o.prepend out).outputs = out :: o.outputs := rfl

theorem runAll_cons_eq_andThen {p : Word} {s : State} {e : Edge} {rest : List Edge} (h : s.input = e :: rest) :
    runAll p s = andThen (acceptEdge p e (takeEdge rest s)) (runAll p) := by
  rw [runAll_cons h]
  cases acceptEdge p e (takeEdge rest s) <;> rfl

/-- Observing does not see the host's list: taking the edge from it first changes nothing. -/
theorem observe_takeEdge (p : Word) (es rest : List Edge) (s : State) :
    observe p es (takeEdge rest s) = observe p es s :=
  observe_of_same_regs p es (takeEdge_regs rest s)

theorem observe_cons_of_takeEdge_next {p : Word} {e : Edge} {rest : List Edge} {s t : State} {r : Word} {v : Bool}
    (h : acceptEdge p e (takeEdge rest s) = .next t) (ht : t.regs = .defined r v) :
    observe p (e :: rest) s = (observe p rest t).prepend (lowByte r, v) := by
  rw [← observe_takeEdge p _ rest s, observe_cons_of_next h ht]

/-- From held registers an accepted edge leaves held ones, and the observation adds their pair. -/
theorem observe_cons_of_initialised {p : Word} {e : Edge} {rest : List Edge} {s t : State} (hs : Initialised s)
    (h : acceptEdge p e (takeEdge rest s) = .next t) :
    t.input = rest ∧ Initialised t ∧ ∃ r v, t.regs = .defined r v ∧
      observe p (e :: rest) s = (observe p rest t).prepend (lowByte r, v) := by
  have ht : Initialised t := acceptEdge_keeps_initialised (s := takeEdge rest s) hs h
  obtain ⟨r, v, hr⟩ := (initialised_iff t).1 ht
  exact ⟨(acceptEdge_takeEdge_next h).2, ht, r, v, hr, observe_cons_of_takeEdge_next h hr⟩

theorem observe_cons_of_fault {p : Word} {e : Edge} {rest : List Edge} {s : State} {why : Fault}
    (h : acceptEdge p e (takeEdge rest s) = .fault why) : observe p (e :: rest) s = markedEnd (.fault why) := by
  rw [← observe_takeEdge p _ rest s, observe, h]

theorem observe_cons_of_refused {p : Word} {e : Edge} {rest : List Edge} {s : State} {why : Refusal}
    (h : acceptEdge p e (takeEdge rest s) = .refused why) : observe p (e :: rest) s = markedEnd (.refusal why) := by
  rw [← observe_takeEdge p _ rest s, observe, h]

/-- The reads after an edge that leaves no value in the registers fault (spec/10_state.md R29). -/
theorem observe_cons_of_next_uninitialised {p : Word} {e : Edge} {rest : List Edge} {s t : State}
    (h : acceptEdge p e (takeEdge rest s) = .next t) (ht : t.regs = .uninitialised) :
    observe p (e :: rest) s = markedEnd (.fault .uninitialisedState) := by
  have hread : readOutputs t = .error .uninitialisedState := by
    rw [readOutputs, (randO_eq_error_iff t _).2 ⟨ht, rfl⟩]
  rw [← observe_takeEdge p _ rest s, observe, h]
  simp only [hread]

/-- From held registers the observation is marked as the run's outcome says. -/
theorem observe_mark_of_initialised (p : Word) {es : List Edge} {s : State} (hinput : s.input = es)
    (hs : Initialised s) : (observe p es s).mark = outcomeMark (runAll p s) := by
  induction es generalizing s with
  | nil =>
    obtain ⟨r, v, hr⟩ := (initialised_iff s).1 hs
    rw [observe_nil_of_defined p hr, runAll_nil hinput]; rfl
  | cons e rest ih =>
    rw [runAll_cons_eq_andThen hinput]
    cases hedge : acceptEdge p e (takeEdge rest s) with
    | fault why => rw [observe_cons_of_fault hedge]; rfl
    | refused why => rw [observe_cons_of_refused hedge]; rfl
    | next t =>
      obtain ⟨htinput, ht, r, v, -, hobs⟩ := observe_cons_of_initialised hs hedge
      rw [hobs, Observation.prepend_mark, andThen_next, ih htinput ht]

/-- A run that faults is marked with its fault from every state: an edge that leaves no value faults when it is
observed, and after any other the registers are held. -/
theorem observe_mark_of_fault {p : Word} {s : State} {why : Fault} (h : runAll p s = .fault why) :
    (observe p s.input s).mark = some (.fault why) := by
  cases hinput : s.input with
  | nil => rw [runAll_nil hinput] at h; cases h
  | cons e rest =>
    rw [runAll_cons_eq_andThen hinput] at h
    cases hedge : acceptEdge p e (takeEdge rest s) with
    | refused why' => rw [hedge, andThen_refused] at h; cases h
    | fault why' =>
      rw [hedge, andThen_fault] at h
      cases h
      rw [observe_cons_of_fault hedge]; rfl
    | next t =>
      rw [hedge, andThen_next] at h
      cases hr : t.regs with
      | uninitialised =>
        cases why
        rw [observe_cons_of_next_uninitialised hedge hr]; rfl
      | defined r v =>
        have ht : Initialised t := (initialised_iff t).2 ⟨r, v, hr⟩
        rw [observe_cons_of_takeEdge_next hedge hr, Observation.prepend_mark,
          observe_mark_of_initialised p (acceptEdge_takeEdge_next hedge).2 ht, h]
        rfl

/-- A run that ends is observed with its final `R` and one pair for each edge. -/
theorem observe_of_runAll_next {p : Word} {es : List Edge} {s t : State} (hinput : s.input = es)
    (hs : Initialised s) (h : runAll p s = .next t) :
    (∃ r v, t.regs = .defined r v ∧ (observe p es s).finalState = some r) ∧
      (observe p es s).outputs.length = es.length := by
  induction es generalizing s with
  | nil =>
    obtain ⟨r, v, hr⟩ := (initialised_iff s).1 hs
    obtain rfl : s = t := by simpa [runAll_nil hinput] using h
    rw [observe_nil_of_defined p hr]
    exact ⟨⟨r, v, hr, rfl⟩, rfl⟩
  | cons e rest ih =>
    rw [runAll_cons_eq_andThen hinput] at h
    cases hedge : acceptEdge p e (takeEdge rest s) with
    | fault why => rw [hedge, andThen_fault] at h; cases h
    | refused why => rw [hedge, andThen_refused] at h; cases h
    | next u =>
      rw [hedge, andThen_next] at h
      obtain ⟨huinput, hu, r, v, -, hobs⟩ := observe_cons_of_initialised hs hedge
      simpa [hobs] using ih huinput hu h

/-- Pair `k` of the observation is what the ports show after `k + 1` steps. -/
theorem observe_outputs_getElem? {p : Word} {es : List Edge} {s u : State} {k : Nat} (hinput : s.input = es)
    (hs : Initialised s) (hk : k < es.length) (h : runSteps p (k + 1) s = .next u) :
    ∃ r v, u.regs = .defined r v ∧ (observe p es s).outputs[k]? = some (lowByte r, v) := by
  induction es generalizing s k with
  | nil => exact absurd hk (Nat.not_lt_zero k)
  | cons e rest ih =>
    rw [runSteps_succ_eq_andThen, stepWith_cons hinput] at h
    cases hedge : acceptEdge p e (takeEdge rest s) with
    | fault why => rw [hedge, andThen_fault] at h; cases h
    | refused why => rw [hedge, andThen_refused] at h; cases h
    | next t =>
      rw [hedge, andThen_next] at h
      obtain ⟨htinput, ht, r, v, hr, hobs⟩ := observe_cons_of_initialised hs hedge
      rw [hobs, Observation.prepend_outputs]
      cases k with
      | zero =>
        obtain rfl : t = u := by simpa using h
        exact ⟨r, v, hr, rfl⟩
      | succ k => exact ih htinput ht (Nat.lt_of_succ_lt_succ hk) h

/-- Settles O47: the marks are the outcome's, the final `R` and the pairs those of the states the run goes through. -/
theorem observationAgreesWithTheRun : Obligations.ObservationAgreesWithTheRun := by
  refine ⟨fun p s hs => ⟨fun t h => ?ended, fun why h => ?refused, fun k u hk h => ?outputs⟩,
    fun p s why => observe_mark_of_fault⟩
  case ended =>
    obtain ⟨hfinal, hlength⟩ := observe_of_runAll_next rfl hs h
    exact ⟨by rw [observe_mark_of_initialised p rfl hs, h]; rfl, hfinal, hlength⟩
  case refused => rw [observe_mark_of_initialised p rfl hs, h]; rfl
  case outputs =>
    obtain ⟨r, v, hr, hpair⟩ := observe_outputs_getElem? rfl hs hk h
    exact ⟨lowByte r, v, randO_of_defined hr, randValidO_of_defined hr, hpair⟩

end Sys2Proof.Machine
end

section
/-! Reset (spec/70_reset_and_hazards.md R95 to R98): one edge with `rst_i = 1`, such edges in a row, and what is
observed from there on. -/

namespace Sys2Proof.Machine

/-- After a reset edge a run is observed as from the reset state (R95). -/
theorem observe_reset_cons {p : Word} {e : Edge} (hrst : levelBit e.rst = some true) (es : List Edge) (s : State) :
    observe p (e :: es) s = (observe p es (State.resetWith p)).prepend (lowByte p, false) := by
  have hfresh : (applyReset p s).regs = (State.resetWith p).regs := rfl
  rw [observe_cons_of_next (acceptEdge_of_reset hrst) (applyReset_regs p s), observe_of_same_regs p es hfresh]

theorem runAll_reset_cons (p : Word) (es : List Edge) (s : State) :
    runAll p (withEdges (resetEdge :: es) s) = runAll p (withEdges es (applyReset p (takeEdge [] s))) := by
  rw [runAll_withEdges_cons, acceptEdge_of_reset rfl, andThen_next]

/-- Reset edges in a row leave the registers of one; only the position counts them (R96). -/
theorem runAll_replicate_reset (p : Word) (n : Nat) (s : State) :
    runAll p (withEdges (List.replicate (n + 1) resetEdge) s) =
      .next { regs := .defined p false, input := [], pos := s.pos + (n + 1) } := by
  induction n generalizing s with
  | zero => rw [List.replicate_succ, runAll_reset_cons]; rfl
  | succ n ih =>
    rw [List.replicate_succ, runAll_reset_cons, ih, applyReset_pos, takeEdge_pos, Nat.add_assoc, Nat.add_comm 1]

/-- A list of one edge that carries a command runs as that command. -/
theorem runAll_singleton_of_decodePins (p : Word) {e : Edge} {i : Instr} (s : State)
    (hrst : levelBit e.rst = some false) (hd : decodePins e = .ok i) :
    runAll p (withEdges [e] s) = exec i (takeEdge [] s) := by
  rw [runAll_withEdges_cons, acceptEdge_of_decodePins hrst hd]
  cases hexec : exec i (takeEdge [] s) with
  | fault why => rfl
  | refused why => rfl
  | next t =>
    have hinput : t.input = [] := (exec_next_input hexec).1
    rw [andThen_next, runAll_nil rfl, withEdges, ← hinput]

/-- Settles O24: both observations are the one of the reset state; `GEN` there writes the closed form. -/
theorem resetIsConstructionWithTheResetSeed : Obligations.ResetIsConstructionWithTheResetSeed := by
  refine ⟨fun p cmd seed es s => ?_, fun p => ?_⟩
  · rw [observe_reset_cons rfl, observe_init_cons]
  · rw [exec_gen_of_defined (s := State.resetWith p) rfl, generate_eq_closedForm]; rfl

/-- Settles O22: the reset edges run first, and the command runs from what they leave. -/
theorem heldResetIsOneReset : Obligations.HeldResetIsOneReset := by
  intro p n e i s hrst hd
  have hlevel : levelBit e.rst = some false := by rw [hrst]; rfl
  refine ⟨runAll_replicate_reset p n s, ?_⟩
  rw [runAll_withEdges_append, runAll_replicate_reset, andThen_next, runAll_singleton_of_decodePins p _ hlevel hd]
  rfl

/-- Settles O21: the step takes the edge, and `rst_i = 1` decides before the pins are decoded. -/
theorem resetEdgeLoadsTheResetSeed : Obligations.ResetEdgeLoadsTheResetSeed := by
  intro p cmd seed rest s hs
  rw [stepWith_cons hs, acceptEdge_of_reset rfl]; rfl

/-- Settles O23: both states hold `R = RESET_SEED` and `V = 0`, which the ports show. -/
theorem outputsStraightAfterReset : Obligations.OutputsStraightAfterReset := by
  intro p s t hs
  have hregs : s.regs = .defined p false := by rcases hs with rfl | rfl <;> rfl
  exact ⟨stateO_of_defined hregs, randO_of_defined hregs, randValidO_of_defined hregs⟩

end Sys2Proof.Machine
end

section
/-! Two commands at consecutive edges (spec/70_reset_and_hazards.md R100, spec/20_memory.md R41). -/

namespace Sys2Proof.Machine

/-- The second of two commands works on what the first one left. -/
theorem runAll_pair_of_exec (p : Word) {i j : Instr} {s t u : State} (hi : exec i s = .next t)
    (hj : exec j t = .next u) :
    ∃ w, runAll p (withEdges [commandEdge (encode i), commandEdge (encode j)] s) = .next w ∧ w.regs = u.regs := by
  obtain ⟨t', hfirst, ht⟩ := acceptEdge_commandEdge_encode p (takeEdge_regs [] s) hi
  obtain ⟨u', hsecond, hu⟩ := acceptEdge_commandEdge_encode p ((takeEdge_regs [] t').trans ht) hj
  refine ⟨withEdges [] u', ?_, hu⟩
  rw [runAll_withEdges_cons, hfirst, andThen_next, runAll_withEdges_cons, hsecond, andThen_next, runAll_nil rfl]

/-- Settles O45: the three named pairs are instances of the general one. -/
theorem consecutiveCommandsSeeEachOther : Obligations.ConsecutiveCommandsSeeEachOther := by
  refine ⟨fun p i j s t u => runAll_pair_of_exec p, fun p s seed => ?_, fun p s r v hr => ?_,
    fun p s r v seed hr => ?_⟩
  · exact runAll_pair_of_exec p (exec_init seed s) (exec_gen_of_defined rfl)
  · exact runAll_pair_of_exec p (exec_gen_of_defined hr) (exec_gen_of_defined rfl)
  · exact runAll_pair_of_exec p (exec_gen_of_defined hr) (exec_init seed _)

end Sys2Proof.Machine
end

section
/-! The command word put before the host's list is the next edge (spec/20_memory.md R41, spec/30_encoding.md R45). -/

namespace Sys2Proof.Machine

/-- A table word has a command exactly when the command word in it does. -/
theorem decodeTableWord_eq_some_iff (nbits w : Nat) (i : Instr) :
    decodeTableWord nbits w = some i ↔ decode (tableWord nbits w) = .ok i := by
  rw [decodeTableWord]
  cases decode (tableWord nbits w) <;> simp

/-- Taking the offered edge leaves the host's list as it was. -/
theorem takeEdge_offerCommand (w : CommandWord) (s : State) :
    takeEdge s.input (offerCommand w s) = { s with pos := s.pos + 1 } := rfl

/-- The step after a command word is offered runs the command it decodes to. -/
theorem stepWith_offerCommand {w : CommandWord} {i : Instr} (hd : decode w = .ok i) (p : Word) (s : State) :
    stepWith p (offerCommand w s) = exec i { s with pos := s.pos + 1 } := by
  have hpins : decodePins (commandEdge w) = .ok i := (decodePins_commandEdge w).trans hd
  rw [stepWith_cons (offerCommand_input w s), takeEdge_offerCommand, acceptEdge_of_decodePins rfl hpins]

/-- Settles O30: the table word is offered as the command word in it, which decodes to the same command. -/
theorem offeredWordIsRunNext : Obligations.OfferedWordIsRunNext := by
  intro s nbits w i hw
  exact stepWith_offerCommand ((decodeTableWord_eq_some_iff nbits w i).1 hw) Config.resetSeed s

end Sys2Proof.Machine
end
